-- ==== Sys2Proof/Word.lean ====
section
/-! DEFINITION. The two word types of the core (R6, R9): bytes and 32-bit words, both unsigned. -/

namespace Sys2Proof

/-- An 8-bit value: a memory byte, or the content of one of `a b c d e f` (R9, R20). -/
abbrev Byte := BitVec 8

/-- A 32-bit value: an address, an imm32, or the content of one of `la lb lc ld ptr pc` (R9, R22). -/
abbrev Word := BitVec 32

end Sys2Proof
end

