-- ==== Sys2Proof/Config.lean ====
section
/-! DEFINITION. The identity of the hardware (R2), what an implementation fixes (R7), and the one free value of the
model. -/

namespace Sys2Proof

/-- The identity of the hardware, by the pair R2 says a model should carry. It has no further part: the source gives
the instruction set no name, version number, ISA string, part number or vendor. -/
structure Identity where
  /-- the repository whose core this is -/
  repository : String
  /-- the document id of its one source document (R3) -/
  document : String
  deriving DecidableEq, Repr

/-- The core modelled here (R2). -/
def Config.identity : Identity where
  repository := "gdemartini/TomsDataOnion"
  document := "TDO"

/-- R57's switch `IMM32_DEFECT`: selects the defective imm32 reader that the source suspects in its
reference code. `false` is normative (`90_conflicts.md` C2, D11; log 5, UNVERIFIED). -/
def Config.imm32Defect : Bool := false

/-- The number of addresses a 32-bit pointer can name (R6). `MEMSIZE` is smaller than this (R51, D1). -/
def Config.addressSpan : Nat := 2 ^ 32

/-- FREE VALUE (log 9). After how many iterations the default timeout, which the source gives no value (D16), elapses in
a run begun after `n` resets: some number of them (R212), and nothing in the model constrains which. -/
opaque Config.defaultTimeout : Nat → Nat

end Sys2Proof
end

