-- ==== Sys2Proof/Machine/State.lean ====
section
/-! DEFINITION. The state of the core (R20 to R36), as plain data; the reasons a step can stop; the state after reset. -/

namespace Sys2Proof.Machine

/-- The 8-bit register file `x8` (R20). Separate storage from the 32-bit file (R23). -/
structure Regs8 where
  a : Byte
  b : Byte
  c : Byte
  d : Byte
  e : Byte
  f : Byte
  deriving DecidableEq, Repr

/-- The 32-bit register file `x32` (R22), the program counter among them (R27). -/
structure Regs32 where
  la : Word
  lb : Word
  lc : Word
  ld : Word
  ptr : Word
  pc : Word
  deriving DecidableEq, Repr

/-- The memory buffer: `MEMSIZE` bytes, code and data alike (R33, R50). `cells` lists, by rising address, the bytes
that differ from `Memory.unlisted` (log 6). -/
structure Memory where
  /-- `MEMSIZE`, the length of the loaded image (R51). -/
  size : Nat
  cells : List Host.Cell
  deriving DecidableEq, Repr

/-- What a listed-nowhere address below `MEMSIZE` reads as (log 6, DESIGN CHOICE of representation: the image gives
every byte, and a byte 0 of it is not listed). -/
def Memory.unlisted : Byte := 0

/-- The two fatal conditions (R200, R203). -/
inductive FatalKind where
  | unsupportedOpcode
  | outOfBounds
  deriving DecidableEq, Repr

/-- What a fatal condition records beside its kind and `ia` (R201, R202). -/
inductive FaultInfo where
  /-- UnsupportedOpcode: the byte (R201). -/
  | opcodeByte (b : Byte)
  /-- O1, opcode fetch outside memory: the address `ia`. -/
  | fetchAddress (n : Nat)
  /-- O2, instruction extends past memory: the address `ia + len - 1`. -/
  | extentAddress (n : Nat)
  /-- O3, invalid selector. -/
  | selector
  /-- O4, data access outside memory: the address `ptr + c`. -/
  | dataAddress (n : Nat)
  /-- O5, pointer overflow. -/
  | ptrOverflow
  deriving DecidableEq, Repr

/-- The sequencer's status (R30). -/
inductive Status where
  | idle
  | running
  | halted
  | timedOut
  | faulted (kind : FatalKind) (ia : Word) (info : FaultInfo)
  deriving DecidableEq, Repr

/-- What the host provides as watchdog (R210 to R212, R242): the source of the Boolean `wd` sampled at the head of every
iteration (R114). Held as plain data (log 8). Each is true at some iteration of every run that does not end otherwise
(R212): there is no watchdog that never fires (log 22). -/
inductive Watchdog where
  /-- Nothing provided: the source's default timeout, which has no stated value (D16); the iteration at which it has
  elapsed is a free value (log 9). -/
  | unset
  /-- The wall-clock reading: the samples to come, the next one first; after the last of them the timeout has elapsed
  (R212: `wd` becomes true at some iteration). -/
  | wallClock (samples : List Bool)
  /-- The instruction-count reading: `wd` is `icount >= MAX_INSTR` (R211). -/
  | maxInstr (n : Nat)
  deriving DecidableEq, Repr

/-- A transaction of the host to the core (R124). -/
inductive HostMove where
  /-- Reset (R240). -/
  | reset
  /-- Load the image: its length is `MEMSIZE` (R241, R242). -/
  | loadImage (image : List Byte)
  /-- Preload `PC_INIT` and `PTR_INIT` (R242). -/
  | preload (pcInit ptrInit : Word)
  /-- Provide the watchdog (R242). -/
  | provideWatchdog (w : Watchdog)
  /-- Start the run (R110). -/
  | start
  deriving DecidableEq, Repr

/-- The state of the machine. -/
structure State where
  /-- `a b c d e f` (R20) -/
  x8 : Regs8
  /-- `la lb lc ld ptr pc` (R22) -/
  x32 : Regs32
  /-- `M` and `MEMSIZE` (R33) -/
  mem : Memory
  /-- `OUTSEQ`, the first byte output first (R34) -/
  outseq : List Byte
  /-- the sequencer status (R30) -/
  status : Status
  /-- the count of completed instructions (R31) -/
  icount : Nat
  /-- the watchdog input (R114; log 8) -/
  watchdog : Watchdog
  /-- the MODEL'S OWN: how many resets the host has made, which numbers the runs (log 9) -/
  resets : Nat
  /-- the MODEL'S OWN: the host's pending transactions, the next one first (log 11) -/
  hostMoves : List HostMove
  deriving DecidableEq, Repr

/-- The reasons a step of this machine could stop with a fault: there are none. Both fatal conditions of the core are
NEXT states with status `FAULTED` (R207; log 1), so no definition raises a fault. An empty type: safe. -/
inductive Fault where
  deriving DecidableEq, Repr

/-- The reasons the model gives no meaning. -/
inductive Refusal where
  /-- An instruction the model gives no meaning yet: raised by `exec`'s refused arms (there is none). Safe. -/
  | notModelled (mnemonic : String)
  /-- The host tried to load, preload or provide a watchdog outside IDLE: raised by `transact` (R35, R124, U12; log 18).
  Safe: the model gives such a run no behaviour. -/
  | hostMoveOutsideIdle
  /-- The host tried to start a run outside IDLE: raised by `transact` (R110, U13, "not restartable"; log 18). Safe. -/
  | runNotRestartable
  /-- The host tried to load an image of 2^32 bytes or more: raised by `transact` (R51, D1, U9; log 17). Safe. -/
  | imageTooLong
  deriving DecidableEq, Repr

/-- The machine right after reset (R36, R240): every register 0, the output empty, status IDLE. Reset does not define
the memory (R241); here no image has been loaded yet, so there is none (log 7). -/
def State.reset : State where
  x8 := { a := 0, b := 0, c := 0, d := 0, e := 0, f := 0 }
  x32 := { la := 0, lb := 0, lc := 0, ld := 0, ptr := 0, pc := 0 }
  mem := { size := 0, cells := [] }
  outseq := []
  status := .idle
  icount := 0
  watchdog := .unset
  resets := 0
  hostMoves := []

end Sys2Proof.Machine
end

