-- ==== Sys2Proof/Machine/Flags.lean ====
section
/-! DEFINITION. The condition state: there is no flags register, only the byte `f` that CMP writes and JEZ and JNZ
test (R28). -/

namespace Sys2Proof.Machine

/-- What CMP writes to `f`: 0 if the operands are equal, else 1 (R163). -/
def compareByte (x y : Byte) : Byte := if x = y then 0x00#8 else 0x01#8

/-- The condition of JEZ (R180). -/
def conditionZero (f : Byte) : Bool := f == 0x00#8

/-- The condition of JNZ: any of 1 to 255 (R181). -/
def conditionNonzero (f : Byte) : Bool := f != 0x00#8

end Sys2Proof.Machine
end

