-- ==== Sys2Proof/Syntax.lean ====
section
/-! DEFINITION. The instructions as syntax: one constructor of `Instr` per row of the opcode table
(R2, R81), the operands of the move family by name (R86). -/

namespace Sys2Proof

/-- The six 8-bit registers (R20). -/
inductive Reg8 where
  | a | b | c | d | e | f
  deriving DecidableEq, Repr

/-- The six 32-bit registers (R22). -/
inductive Reg32 where
  | la | lb | lc | ld | ptr | pc
  deriving DecidableEq, Repr

/-- An operand of the 8-bit family: what a 3-bit selector names there (R86). -/
inductive Sel8 where
  /-- Selector 0: names no register (R26). The decoder lets it through as a destination (R84, R91). -/
  | zero
  /-- Selectors 1 to 6: a register. -/
  | reg (r : Reg8)
  /-- Selector 7: the indirect pseudo-register `(ptr+c)` (R25). -/
  | ind
  deriving DecidableEq, Repr

/-- An operand of the 32-bit family: what a 3-bit selector names there (R86). -/
inductive Sel32 where
  /-- Selector 0: names no register (R26). -/
  | zero
  /-- Selectors 1 to 6: a register. -/
  | reg (r : Reg32)
  /-- Selector 7: not valid in this family (R22). -/
  | seven
  deriving DecidableEq, Repr

/-- The thirteen mnemonics (R2). -/
inductive Mnemonic where
  | mvi | mv | mvi32 | mv32 | halt | out | jez | jnz | cmp | add | sub | xor | aptr
  deriving DecidableEq, Repr

/-- The thirteen instructions, in the order of the opcode table. -/
inductive Instr where
  /-- `MVI d <- imm8` (R143) -/
  | mvi (dst : Sel8) (imm8 : Byte)
  /-- `MV d <- s` (R142) -/
  | mv (dst src : Sel8)
  /-- `MVI32 d <- imm32` (R145) -/
  | mvi32 (dst : Sel32) (imm32 : Word)
  /-- `MV32 d <- s` (R144) -/
  | mv32 (dst src : Sel32)
  /-- `HALT` (R182) -/
  | halt
  /-- `OUT` (R190) -/
  | out
  /-- `JEZ imm32` (R180) -/
  | jez (imm32 : Word)
  /-- `JNZ imm32` (R181) -/
  | jnz (imm32 : Word)
  /-- `CMP` (R163) -/
  | cmp
  /-- `ADD` (R160) -/
  | add
  /-- `SUB` (R161) -/
  | sub
  /-- `XOR` (R162) -/
  | xor
  /-- `APTR imm8` (R164) -/
  | aptr (imm8 : Byte)
  deriving DecidableEq, Repr

end Sys2Proof
end

