-- ==== Sys2Proof/WellFormed.lean ====
section
/-! DEFINITION. Which terms of `Instr` have an encoding. Source selector 0 is the mark of the immediate
form (R26, R86), so it is no operand of MV or MV32. An invalid DESTINATION selector has an encoding: it
decodes, and is refused by the instruction when it executes (R84, R91; log 16). -/

namespace Sys2Proof

/-- The instruction has an encoding (R81). -/
def Instr.wellFormed : Instr → Bool
  | .mvi _ _ => true
  | .mv _ src => src != .zero
  | .mvi32 _ _ => true
  | .mv32 _ src => src != .zero
  | .halt => true
  | .out => true
  | .jez _ => true
  | .jnz _ => true
  | .cmp => true
  | .add => true
  | .sub => true
  | .xor => true
  | .aptr _ => true

end Sys2Proof
end

