-- ==== Sys2Proof/Decode.lean ====
section
/-! DEFINITION. The decoder (R80 to R94), total on any bytes and rejecting by name; then the encoder (R81,
R95), the assembler spelling (R95) and the host's table word. -/

namespace Sys2Proof

/-! ## Fields and immediates -/

/-- `dst = b[5:3]` (R82). -/
def dstBits (b : Byte) : BitVec 3 := (b >>> 3).setWidth 3

/-- `src = b[2:0]` (R82). -/
def srcBits (b : Byte) : BitVec 3 := b.setWidth 3

/-- What a selector names in the 8-bit family (R86). -/
def Sel8.ofBits (n : BitVec 3) : Sel8 :=
  match n.toNat with
  | 0 => .zero
  | 1 => .reg .a
  | 2 => .reg .b
  | 3 => .reg .c
  | 4 => .reg .d
  | 5 => .reg .e
  | 6 => .reg .f
  | _ => .ind

/-- The selector of an operand of the 8-bit family (R86). -/
def Sel8.bits : Sel8 → BitVec 3
  | .zero => 0
  | .reg .a => 1
  | .reg .b => 2
  | .reg .c => 3
  | .reg .d => 4
  | .reg .e => 5
  | .reg .f => 6
  | .ind => 7

/-- What a selector names in the 32-bit family (R86). -/
def Sel32.ofBits (n : BitVec 3) : Sel32 :=
  match n.toNat with
  | 0 => .zero
  | 1 => .reg .la
  | 2 => .reg .lb
  | 3 => .reg .lc
  | 4 => .reg .ld
  | 5 => .reg .ptr
  | 6 => .reg .pc
  | _ => .seven

/-- The selector of an operand of the 32-bit family (R86). -/
def Sel32.bits : Sel32 → BitVec 3
  | .zero => 0
  | .reg .la => 1
  | .reg .lb => 2
  | .reg .lc => 3
  | .reg .ld => 4
  | .reg .ptr => 5
  | .reg .pc => 6
  | .seven => 7

/-- The 32-bit value of four bytes, the least significant one first (R55). -/
def leWord (b0 b1 b2 b3 : Byte) : Word :=
  BitVec.ofNat 32 (b0.toNat + 2 ^ 8 * b1.toNat + 2 ^ 16 * b2.toNat + 2 ^ 24 * b3.toNat)

/-- Byte `k` of a word, counted from the least significant one. -/
def wordByte (v : Word) (k : Nat) : Byte := BitVec.ofNat 8 (v.toNat / 2 ^ (8 * k))

/-- The value of an imm32 whose bytes are `b0 b1 b2 b3` at `ia+1 .. ia+4`: little-endian (R55, R88), or, under
the switch of R57, with the byte at `ia+4` taken twice. -/
def imm32OfBytes (defect : Bool) (b0 b1 b2 b3 : Byte) : Word :=
  if defect then leWord b0 b1 b3 b3 else leWord b0 b1 b2 b3

/-! ## The decoder -/

/-- The length in bytes of each instruction, opcode byte included (R80). -/
def Mnemonic.length : Mnemonic → Nat
  | .mvi => 2
  | .mv => 1
  | .mvi32 => 5
  | .mv32 => 1
  | .halt => 1
  | .out => 1
  | .jez => 5
  | .jnz => 5
  | .cmp => 1
  | .add => 1
  | .sub => 1
  | .xor => 1
  | .aptr => 2

/-- The fixed opcode table, complete (R85). -/
def fixedOpcode (b : Byte) : Option Mnemonic :=
  if b = 0xC2#8 then some .add
  else if b = 0xE1#8 then some .aptr
  else if b = 0xC1#8 then some .cmp
  else if b = 0x01#8 then some .halt
  else if b = 0x21#8 then some .jez
  else if b = 0x22#8 then some .jnz
  else if b = 0x02#8 then some .out
  else if b = 0xC3#8 then some .sub
  else if b = 0xC4#8 then some .xor
  else none

/-- R83's resolved code of a move-family byte. -/
def resolvedCode (b : Byte) : Byte :=
  (b &&& 0xC0#8) ||| (if srcBits b = 0 then 0#8 else 1#8)

/-- The move family's mnemonic of a resolved code (R83). -/
def moveFamily (b : Byte) : Option Mnemonic :=
  if resolvedCode b = 0x41#8 then some .mv
  else if resolvedCode b = 0x40#8 then some .mvi
  else if resolvedCode b = 0x81#8 then some .mv32
  else if resolvedCode b = 0x80#8 then some .mvi32
  else none

/-- The mnemonic of an opcode byte (R83): the move family by its two top bits, else the fixed table. -/
def mnemonicOf (b : Byte) : Option Mnemonic :=
  if b &&& 0xC0#8 = 0x40#8 ∨ b &&& 0xC0#8 = 0x80#8 then moveFamily b else fixedOpcode b

/-- R83's `decode(b)`: the mnemonic and the length, or no instruction. It looks at the opcode byte alone and
checks no selector (R84). -/
def decodeByte (b : Byte) : Option (Mnemonic × Nat) :=
  (mnemonicOf b).map fun mn => (mn, mn.length)

/-- The imm8 among the bytes that follow the opcode byte (R87). -/
def imm8Of (rest : List Byte) : Byte := rest.getD 0 0

/-- The imm32 among the bytes that follow the opcode byte (R88, R57). -/
def imm32Of (defect : Bool) (rest : List Byte) : Word :=
  imm32OfBytes defect (rest.getD 0 0) (rest.getD 1 0) (rest.getD 2 0) (rest.getD 3 0)

/-- The instruction of a mnemonic, its opcode byte and the bytes after it (R81, R82). -/
def assemble (defect : Bool) (mn : Mnemonic) (b : Byte) (rest : List Byte) : Instr :=
  match mn with
  | .mvi => .mvi (Sel8.ofBits (dstBits b)) (imm8Of rest)
  | .mv => .mv (Sel8.ofBits (dstBits b)) (Sel8.ofBits (srcBits b))
  | .mvi32 => .mvi32 (Sel32.ofBits (dstBits b)) (imm32Of defect rest)
  | .mv32 => .mv32 (Sel32.ofBits (dstBits b)) (Sel32.ofBits (srcBits b))
  | .halt => .halt
  | .out => .out
  | .jez => .jez (imm32Of defect rest)
  | .jnz => .jnz (imm32Of defect rest)
  | .cmp => .cmp
  | .add => .add
  | .sub => .sub
  | .xor => .xor
  | .aptr => .aptr (imm8Of rest)

/-- Why bytes are no instruction. -/
inductive DecodeError where
  /-- There is no byte at all. -/
  | noByte
  /-- The opcode byte is none of R83's (R90). -/
  | unsupportedOpcode (b : Byte)
  /-- The instruction is `len` bytes long and there are fewer (R117). -/
  | truncated (len : Nat)
  deriving DecidableEq, Repr

/-- Decode the instruction at the head of `bytes`, with R57's switch given: the instruction and the bytes after it. -/
def decodeWith (defect : Bool) (bytes : List Byte) : Except DecodeError (Instr × List Byte) :=
  match bytes with
  | [] => .error .noByte
  | b :: rest =>
    match decodeByte b with
    | none => .error (.unsupportedOpcode b)
    | some (mn, len) =>
      if rest.length + 1 < len then .error (.truncated len)
      else .ok (assemble defect mn b rest, rest.drop (len - 1))

/-- The decoder of this configuration (R57, R83). -/
def decode (bytes : List Byte) : Except DecodeError (Instr × List Byte) :=
  decodeWith Config.imm32Defect bytes

/-! ## Facts about an instruction as syntax -/

/-- The mnemonic of an instruction. -/
def Instr.mnemonic : Instr → Mnemonic
  | .mvi _ _ => .mvi
  | .mv _ _ => .mv
  | .mvi32 _ _ => .mvi32
  | .mv32 _ _ => .mv32
  | .halt => .halt
  | .out => .out
  | .jez _ => .jez
  | .jnz _ => .jnz
  | .cmp => .cmp
  | .add => .add
  | .sub => .sub
  | .xor => .xor
  | .aptr _ => .aptr

/-- The length of an instruction in bytes (R80). -/
def Instr.length (i : Instr) : Nat := i.mnemonic.length

/-- The selector lies in the valid range of the 8-bit family, 1 to 7 (R91). -/
def Sel8.valid : Sel8 → Bool
  | .zero => false
  | .reg _ => true
  | .ind => true

/-- The selector lies in the valid range of the 32-bit family, 1 to 6 (R91). -/
def Sel32.valid : Sel32 → Bool
  | .zero => false
  | .reg _ => true
  | .seven => false

/-- Every selector of the instruction lies in its family's valid range (R91). -/
def Instr.selectorsValid : Instr → Bool
  | .mvi dst _ => dst.valid
  | .mv dst src => dst.valid && src.valid
  | .mvi32 dst _ => dst.valid
  | .mv32 dst src => dst.valid && src.valid
  | .halt => true
  | .out => true
  | .jez _ => true
  | .jnz _ => true
  | .cmp => true
  | .add => true
  | .sub => true
  | .xor => true
  | .aptr _ => true

/-! ## The encoder -/

/-- The opcode byte of a move-family instruction: prefix, destination, source (R82). -/
def moveByte (fam dst src : Nat) : Byte := BitVec.ofNat 8 (fam + 8 * dst + src)

/-- The four bytes of an imm32, the least significant one first (R55, R81). -/
def imm32Bytes (v : Word) : List Byte := [wordByte v 0, wordByte v 1, wordByte v 2, wordByte v 3]

/-- The bytes of an instruction (R81, R85, R95). -/
def encode : Instr → List Byte
  | .mvi dst imm8 => [moveByte 0x40 dst.bits.toNat 0, imm8]
  | .mv dst src => [moveByte 0x40 dst.bits.toNat src.bits.toNat]
  | .mvi32 dst imm32 => moveByte 0x80 dst.bits.toNat 0 :: imm32Bytes imm32
  | .mv32 dst src => [moveByte 0x80 dst.bits.toNat src.bits.toNat]
  | .halt => [0x01#8]
  | .out => [0x02#8]
  | .jez imm32 => 0x21#8 :: imm32Bytes imm32
  | .jnz imm32 => 0x22#8 :: imm32Bytes imm32
  | .cmp => [0xC1#8]
  | .add => [0xC2#8]
  | .sub => [0xC3#8]
  | .xor => [0xC4#8]
  | .aptr imm8 => [0xE1#8, imm8]

/-! ## The assembler spelling (R95) -/

/-- The name of an 8-bit operand; selector 0 has none in the spec and is written `0`. -/
def Sel8.spelling : Sel8 → String
  | .zero => "0"
  | .reg .a => "a"
  | .reg .b => "b"
  | .reg .c => "c"
  | .reg .d => "d"
  | .reg .e => "e"
  | .reg .f => "f"
  | .ind => "(ptr+c)"

/-- The name of a 32-bit operand; selectors 0 and 7 have none in the spec and are written `0` and `7`. -/
def Sel32.spelling : Sel32 → String
  | .zero => "0"
  | .reg .la => "la"
  | .reg .lb => "lb"
  | .reg .lc => "lc"
  | .reg .ld => "ld"
  | .reg .ptr => "ptr"
  | .reg .pc => "pc"
  | .seven => "7"

/-- The instruction in the spec's one spelling (R95), immediates in decimal. -/
def Instr.spelling : Instr → String
  | .mvi dst imm8 => "MVI " ++ dst.spelling ++ " <- " ++ Nat.repr imm8.toNat
  | .mv dst src => "MV " ++ dst.spelling ++ " <- " ++ src.spelling
  | .mvi32 dst imm32 => "MVI32 " ++ dst.spelling ++ " <- " ++ Nat.repr imm32.toNat
  | .mv32 dst src => "MV32 " ++ dst.spelling ++ " <- " ++ src.spelling
  | .halt => "HALT"
  | .out => "OUT"
  | .jez imm32 => "JEZ " ++ Nat.repr imm32.toNat
  | .jnz imm32 => "JNZ " ++ Nat.repr imm32.toNat
  | .cmp => "CMP"
  | .add => "ADD"
  | .sub => "SUB"
  | .xor => "XOR"
  | .aptr imm8 => "APTR " ++ Nat.repr imm8.toNat

/-! ## The opcode table's words -/

/-- The five bytes (the longest instruction) of a table word: byte `k` is bits `8k+7 .. 8k` of `w`, the bits from
`nbits` up being 0. The first byte lies at the lowest address (R81). -/
def tableBytes (nbits w : Nat) : List Byte :=
  let v := w % 2 ^ nbits
  [BitVec.ofNat 8 v, BitVec.ofNat 8 (v / 2 ^ 8), BitVec.ofNat 8 (v / 2 ^ 16), BitVec.ofNat 8 (v / 2 ^ 24),
    BitVec.ofNat 8 (v / 2 ^ 32)]

/-- The instruction the decoder reads from a word numbered as the opcode table numbers it. -/
def decodeTableWord (nbits w : Nat) : Option Instr :=
  match decode (tableBytes nbits w) with
  | .ok (i, _) => some i
  | .error _ => none

end Sys2Proof
end

