-- ==== Sys2Proof/Machine/Ops.lean ====
section
/-! DEFINITION. The named operations every instruction and the engine are built from: register access, memory access
with the bounds check (R52 to R54), the output append (R191), the advance (R118), completion (R120), and taking a fatal
condition (R207). There is no return from a fatal condition (R208). -/

namespace Sys2Proof.Machine

/-! ## Registers -/

/-- Read an 8-bit register, `x8[i]` (R10). -/
def Regs8.get (x : Regs8) : Reg8 → Byte
  | .a => x.a
  | .b => x.b
  | .c => x.c
  | .d => x.d
  | .e => x.e
  | .f => x.f

/-- Write an 8-bit register, `x8[i] <- v` (R10). No register is hardwired (R20). -/
def Regs8.set (x : Regs8) (r : Reg8) (v : Byte) : Regs8 :=
  match r with
  | .a => { x with a := v }
  | .b => { x with b := v }
  | .c => { x with c := v }
  | .d => { x with d := v }
  | .e => { x with e := v }
  | .f => { x with f := v }

/-- Read a 32-bit register, `x32[i]` (R10). -/
def Regs32.get (x : Regs32) : Reg32 → Word
  | .la => x.la
  | .lb => x.lb
  | .lc => x.lc
  | .ld => x.ld
  | .ptr => x.ptr
  | .pc => x.pc

/-- Write a 32-bit register, `x32[i] <- v` (R10). No register is hardwired (R22). -/
def Regs32.set (x : Regs32) (r : Reg32) (v : Word) : Regs32 :=
  match r with
  | .la => { x with la := v }
  | .lb => { x with lb := v }
  | .lc => { x with lc := v }
  | .ld => { x with ld := v }
  | .ptr => { x with ptr := v }
  | .pc => { x with pc := v }

/-- Write an 8-bit register of the machine. -/
def State.set8 (s : State) (r : Reg8) (v : Byte) : State := { s with x8 := s.x8.set r v }

/-- Write a 32-bit register of the machine; writing `pc` is a jump (R27). -/
def State.set32 (s : State) (r : Reg32) (v : Word) : State := { s with x32 := s.x32.set r v }

/-! ## Memory -/

/-- The byte a list of cells gives for an address. -/
def cellsRead : List Host.Cell → Nat → Byte
  | [], _ => Memory.unlisted
  | (x, w) :: rest, a => if x = a then w else cellsRead rest a

/-- Write one byte in a list of cells, keeping it rising and free of unlisted values (log 6). -/
def cellsWrite : List Host.Cell → Nat → Byte → List Host.Cell
  | [], a, v => if v = Memory.unlisted then [] else [(a, v)]
  | (x, w) :: rest, a, v =>
    if a < x then (if v = Memory.unlisted then (x, w) :: rest else (a, v) :: (x, w) :: rest)
    else if a = x then (if v = Memory.unlisted then rest else (a, v) :: rest)
    else (x, w) :: cellsWrite rest a v

/-- The cells' addresses rise strictly from `lo` on, lie below `limit`, and no cell holds the unlisted value. -/
def cellsWf : Nat → Nat → List Host.Cell → Bool
  | _, _, [] => true
  | lo, limit, (x, w) :: rest =>
    decide (lo ≤ x) && decide (x < limit) && decide (w ≠ Memory.unlisted) && cellsWf (x + 1) limit rest

/-- The canonical form of a memory, with `MEMSIZE <= 2^32 - 1` (R51). -/
def Memory.wf (m : Memory) : Bool := decide (m.size < Config.addressSpan) && cellsWf 0 m.size m.cells

/-- `M[a]`, defined for `a < MEMSIZE` only (R10, R51). -/
def Memory.read? (m : Memory) (a : Nat) : Option Byte :=
  if a < m.size then some (cellsRead m.cells a) else none

/-- `M[a] <- v`; nothing happens outside the memory (the machine writes through `memWrite`, which checks). -/
def Memory.write (m : Memory) (a : Nat) (v : Byte) : Memory :=
  if a < m.size then { m with cells := cellsWrite m.cells a v } else m

/-- The cells of an image whose first byte lies at address `n`. -/
def imageCells : Nat → List Byte → List Host.Cell
  | _, [] => []
  | n, b :: rest =>
    if b = Memory.unlisted then imageCells (n + 1) rest else (n, b) :: imageCells (n + 1) rest

/-- The memory that holds an image: `MEMSIZE` is the image's length (R241). -/
def Memory.ofImage (image : List Byte) : Memory := { size := image.length, cells := imageCells 0 image }

/-- `MemRead(addr, 1)` (R53): the byte, or OutOfBounds. -/
def memRead (a : Nat) (s : State) : Except FaultInfo Byte :=
  match s.mem.read? a with
  | some v => .ok v
  | none => .error (.dataAddress a)

/-- `MemRead(addr, 4)` (R53): four bytes assembled little-endian, or OutOfBounds. -/
def memRead32 (a : Nat) (s : State) : Except FaultInfo Word :=
  match s.mem.read? a, s.mem.read? (a + 1), s.mem.read? (a + 2), s.mem.read? (a + 3) with
  | some b0, some b1, some b2, some b3 => .ok (leWord b0 b1 b2 b3)
  | _, _, _, _ => .error (.dataAddress a)

/-- `MemWrite(addr, 1, v)` (R54): one byte, or OutOfBounds. -/
def memWrite (a : Nat) (v : Byte) (s : State) : Except FaultInfo State :=
  if a < s.mem.size then .ok { s with mem := s.mem.write a v } else .error (.dataAddress a)

/-- The bytes at `a, a+1, ..` that exist, at most `n` of them. -/
def bytesFrom (m : Memory) : Nat → Nat → List Byte
  | 0, _ => []
  | n + 1, a =>
    match m.read? a with
    | none => []
    | some b => b :: bytesFrom m n (a + 1)

/-! ## Output, advance, completion -/

/-- `Out(v)`: append one byte to the output sequence (R191). -/
def State.output (s : State) (v : Byte) : State := { s with outseq := s.outseq ++ [v] }

/-- `pc <- ia + len` (R118). -/
def State.advance (s : State) (len : Nat) : State := s.set32 .pc (s.x32.pc + BitVec.ofNat 32 len)

/-- One more completed instruction (R120). -/
def State.tick (s : State) : State := { s with icount := s.icount + 1 }

/-- `status <- X` (R10). -/
def State.setStatus (s : State) (x : Status) : State := { s with status := x }

/-! ## Fatal conditions -/

/-- The kind of a fatal condition by what it records (R201, R202). -/
def FaultInfo.kind : FaultInfo → FatalKind
  | .opcodeByte _ => .unsupportedOpcode
  | .fetchAddress _ => .outOfBounds
  | .extentAddress _ => .outOfBounds
  | .selector => .outOfBounds
  | .dataAddress _ => .outOfBounds
  | .ptrOverflow => .outOfBounds

/-- Taking a fatal condition (R207), from the state the iteration began in, whose `pc` is `ia`: every write of the
iteration is discarded, `icount` stays, and the status records kind, `ia` and info. -/
def State.raise (s : State) (info : FaultInfo) : State :=
  s.setStatus (.faulted info.kind s.x32.pc info)

/-- Steps 6 to 8 of an iteration (R112) for an instruction of `len` bytes: advance, then the effect, then completion;
or the fatal condition the effect raises. `s` is the state with `pc = ia` (log 15). -/
def attempt (len : Nat) (effect : State → Except FaultInfo State) (s : State) :
    Host.Outcome State Fault Refusal :=
  match effect (s.advance len) with
  | .ok t => .next t.tick
  | .error info => .next (s.raise info)

/-! ## The host's word -/

/-- Write bytes at `a, a+1, ..`. -/
def Memory.writeList (m : Memory) : Nat → List Byte → Memory
  | _, [] => m
  | a, b :: rest => (m.write a b).writeList (a + 1) rest

/-- The state whose next step fetches and runs the table word's instruction (log 12): its five bytes at `pc`, in a memory
that reaches at least so far, in a run whose watchdog lets one more instruction complete. -/
def State.placeWord (s : State) (nbits w : Nat) : State :=
  let m : Memory := { s.mem with size := max s.mem.size (s.x32.pc.toNat + 5) }
  { s with
    mem := m.writeList s.x32.pc.toNat (tableBytes nbits w)
    status := .running
    watchdog := .maxInstr (s.icount + 1) }

end Sys2Proof.Machine
end

