-- ==== Sys2Proof/Machine/Operands.lean ====
section
/-! DEFINITION. Operand access by selector (R140) and the effective address of the pseudo-register (R141). These are
all the operand forms there are (R89, R146). -/

namespace Sys2Proof.Machine

/-- `EA() = ptr + c`, the sum as natural numbers, `c` unsigned, not reduced (R141; log 3, log 4). -/
def effectiveAddress (s : State) : Nat := s.x32.ptr.toNat + s.x8.c.toNat

/-- `Read8(s)` (R140). -/
def read8 (sel : Sel8) (s : State) : Except FaultInfo Byte :=
  match sel with
  | .zero => .error .selector
  | .reg r => .ok (s.x8.get r)
  | .ind => memRead (effectiveAddress s) s

/-- `Write8(s, v)` (R140). -/
def write8 (sel : Sel8) (v : Byte) (s : State) : Except FaultInfo State :=
  match sel with
  | .zero => .error .selector
  | .reg r => .ok (s.set8 r v)
  | .ind => memWrite (effectiveAddress s) v s

/-- `Read32(s)` (R140); selector 6 reads the advanced `pc` (R27). -/
def read32 (sel : Sel32) (s : State) : Except FaultInfo Word :=
  match sel with
  | .zero => .error .selector
  | .reg r => .ok (s.x32.get r)
  | .seven => .error .selector

/-- `Write32(s, v)` (R140); selector 6 writes `pc`. -/
def write32 (sel : Sel32) (v : Word) (s : State) : Except FaultInfo State :=
  match sel with
  | .zero => .error .selector
  | .reg r => .ok (s.set32 r v)
  | .seven => .error .selector

/-- R140: an instruction checks its selectors before it reads or writes anything. -/
def checkSelectors (valid : Bool) : Except FaultInfo Unit :=
  if valid then .ok () else .error .selector

end Sys2Proof.Machine
end

