-- ==== Sys2Proof/Machine/Alu.lean ====
section
/-! DEFINITION. Arithmetic, logic, compare and pointer instructions (R160 to R165). `a` and `b` are implicit. -/

namespace Sys2Proof.Machine

/-- An instruction that computes a byte from `a` and `b` into a register and records nothing else (R28). -/
def byteOp (mn : Mnemonic) (dst : Reg8) (op : Byte → Byte → Byte) (s : State) : Host.Outcome State Fault Refusal :=
  attempt mn.length (fun t => .ok (t.set8 dst (op t.x8.a t.x8.b))) s

/-- `a <- (a + b) mod 256` (R160). -/
def execAdd (s : State) : Host.Outcome State Fault Refusal := byteOp .add .a (fun x y => x + y) s

/-- `a <- (a - b) mod 256` (R161). -/
def execSub (s : State) : Host.Outcome State Fault Refusal := byteOp .sub .a (fun x y => x - y) s

/-- `a <- a xor b` (R162). -/
def execXor (s : State) : Host.Outcome State Fault Refusal := byteOp .xor .a (fun x y => x ^^^ y) s

/-- `if a == b then f <- 0 else f <- 1` (R163). -/
def execCmp (s : State) : Host.Outcome State Fault Refusal := byteOp .cmp .f compareByte s

/-- `ptr + zext_32(imm8)` as a natural number, or OutOfBounds where 32 bits cannot hold it (R164; log 4). -/
def addToPtr (imm8 : Byte) (s : State) : Except FaultInfo State :=
  let sum := s.x32.ptr.toNat + imm8.toNat
  if Config.addressSpan ≤ sum then .error .ptrOverflow else .ok (s.set32 .ptr (BitVec.ofNat 32 sum))

/-- `ptr <- ptr + imm8` (R164). -/
def execAptr (imm8 : Byte) (s : State) : Host.Outcome State Fault Refusal :=
  attempt Mnemonic.aptr.length (addToPtr imm8) s

end Sys2Proof.Machine
end

