-- ==== Sys2Proof/Machine/Control.lean ====
section
/-! DEFINITION. Control transfer (R180 to R183). Targets are absolute and unchecked at the time of the jump. -/

namespace Sys2Proof.Machine

/-- `pc <- target` where the condition holds, else `pc` stays as advanced. -/
def jumpIf (taken : Bool) (target : Word) (s : State) : State := if taken then s.set32 .pc target else s

/-- `if f == 0 then pc <- imm32` (R180). -/
def execJez (imm32 : Word) (s : State) : Host.Outcome State Fault Refusal :=
  attempt Mnemonic.jez.length (fun t => .ok (jumpIf (conditionZero t.x8.f) imm32 t)) s

/-- `if f != 0 then pc <- imm32` (R181). -/
def execJnz (imm32 : Word) (s : State) : Host.Outcome State Fault Refusal :=
  attempt Mnemonic.jnz.length (fun t => .ok (jumpIf (conditionNonzero t.x8.f) imm32 t)) s

/-- `status <- HALTED` (R182); `pc` has been advanced and the instruction counts. -/
def execHalt (s : State) : Host.Outcome State Fault Refusal :=
  attempt Mnemonic.halt.length (fun t => .ok (t.setStatus .halted)) s

end Sys2Proof.Machine
end

