-- ==== Sys2Proof/Machine/Move.lean ====
section
/-! DEFINITION. The move family (R142 to R145). -/

namespace Sys2Proof.Machine

/-- `MVI d <- imm8` (R143). -/
def execMvi (dst : Sel8) (imm8 : Byte) (s : State) : Host.Outcome State Fault Refusal :=
  attempt Mnemonic.mvi.length (fun t => do
    checkSelectors dst.valid
    write8 dst imm8 t) s

/-- `MV d <- s` (R142): the source is read, with the old `ptr` and `c`, before the destination is written. -/
def execMv (dst src : Sel8) (s : State) : Host.Outcome State Fault Refusal :=
  attempt Mnemonic.mv.length (fun t => do
    checkSelectors (dst.valid && src.valid)
    let v ← read8 src t
    write8 dst v t) s

/-- `MVI32 d <- imm32` (R145); to `pc` it is the unconditional jump. -/
def execMvi32 (dst : Sel32) (imm32 : Word) (s : State) : Host.Outcome State Fault Refusal :=
  attempt Mnemonic.mvi32.length (fun t => do
    checkSelectors dst.valid
    write32 dst imm32 t) s

/-- `MV32 d <- s` (R144): reading `pc` gives the advanced value, writing it is an indirect jump. -/
def execMv32 (dst src : Sel32) (s : State) : Host.Outcome State Fault Refusal :=
  attempt Mnemonic.mv32.length (fun t => do
    checkSelectors (dst.valid && src.valid)
    let v ← read32 src t
    write32 dst v t) s

end Sys2Proof.Machine
end

