-- ==== Sys2Proof/Machine/Output.lean ====
section
/-! DEFINITION. Output (R190, R191). -/

namespace Sys2Proof.Machine

/-- `OUTSEQ <- OUTSEQ ++ [a]` (R190). -/
def execOut (s : State) : Host.Outcome State Fault Refusal :=
  attempt Mnemonic.out.length (fun t => .ok (t.output t.x8.a)) s

end Sys2Proof.Machine
end

