-- ==== Sys2Proof/Machine/Engine.lean ====
section
/-! DEFINITION. The sequencer: the watchdog sample (R114), the fetch (R115 to R117), the iteration (R112), the host's
transactions (R124, R240 to R242), and what the host receives at the end (R123, R192). -/

namespace Sys2Proof.Machine

/-! ## One iteration -/

/-- The Boolean `wd` of this iteration (R114, R211, R212). -/
def watchdogFires (s : State) : Bool :=
  match s.watchdog with
  | .unset => decide (Config.defaultTimeout s.resets ≤ s.icount)
  | .wallClock [] => true
  | .wallClock (wd :: _) => wd
  | .maxInstr n => decide (n ≤ s.icount)

/-- The state after `wd` has been sampled: the input moves on, nothing of the core changes (log 8). -/
def takeSample (s : State) : State :=
  match s.watchdog with
  | .unset => s
  | .wallClock [] => s
  | .wallClock (_ :: rest) => { s with watchdog := .wallClock rest }
  | .maxInstr _ => s

/-- The bytes the fetch can see: those at `pc, pc+1, ..` that exist, as many as the longest instruction has. -/
def fetchWindow (s : State) : List Byte := bytesFrom s.mem 5 s.x32.pc.toNat

/-- Steps 2 to 5 of an iteration (R112): fetch from the current memory (R65), decode, check the extent; the immediate is
read with them (log 15). The fatal condition is the first that applies: O1, UnsupportedOpcode, O2 (R204). -/
def fetch (s : State) : Except FaultInfo Instr :=
  match decode (fetchWindow s) with
  | .ok (i, _) => .ok i
  | .error .noByte => .error (.fetchAddress s.x32.pc.toNat)
  | .error (.unsupportedOpcode b) => .error (.opcodeByte b)
  | .error (.truncated len) => .error (.extentAddress (s.x32.pc.toNat + len - 1))

/-- Steps 2 to 8 of an iteration (R112). -/
def runInstruction (s : State) : Host.Outcome State Fault Refusal :=
  match fetch s with
  | .ok i => exec i s
  | .error info => .next (s.raise info)

/-- One iteration (R112): the watchdog first (R114, R204). -/
def iteration (s : State) : Host.Outcome State Fault Refusal :=
  if watchdogFires s then .next ((takeSample s).setStatus .timedOut) else runInstruction (takeSample s)

/-! ## The host -/

/-- Reset (R240): the registers, the output, the status and `icount` take their reset values; the memory is not touched
(R241), nor are the host's later moves; the model's own count of resets goes up (log 9, log 14). -/
def hostReset (s : State) : State :=
  { State.reset with mem := s.mem, resets := s.resets + 1, hostMoves := s.hostMoves }

/-- A move that is possible in IDLE only (R124). -/
def inIdle (s : State) (why : Refusal) (t : State) : Host.Outcome State Fault Refusal :=
  if s.status = .idle then .next t else .refused why

/-- One transaction of the host (R110, R124, R242). -/
def transact (m : HostMove) (s : State) : Host.Outcome State Fault Refusal :=
  match m with
  | .reset => .next (hostReset s)
  | .loadImage image =>
    if image.length < Config.addressSpan then
      inIdle s .hostMoveOutsideIdle { s with mem := Memory.ofImage image }
    else .refused .imageTooLong
  | .preload pcInit ptrInit =>
    inIdle s .hostMoveOutsideIdle ((s.set32 .pc pcInit).set32 .ptr ptrInit)
  | .provideWatchdog w => inIdle s .hostMoveOutsideIdle { s with watchdog := w }
  | .start => inIdle s .runNotRestartable (s.setStatus .running)

/-- With no run in progress: the host's next pending move, or nothing (R30; log 11, log 13). -/
def hostTurn (s : State) : Host.Outcome State Fault Refusal :=
  match s.hostMoves with
  | [] => .next s
  | m :: rest => transact m { s with hostMoves := rest }

/-- A terminal status (R30). -/
def Status.isTerminal : Status → Bool
  | .idle => false
  | .running => false
  | .halted => true
  | .timedOut => true
  | .faulted _ _ _ => true

/-- The completion signal, once the run has ended (R123, R124). -/
def State.completion (s : State) : Option Status := if s.status.isTerminal then some s.status else none

/-- The output as the host receives it: only after the run has ended (R68, R192). After FAULTED too, which is the MODEL'S
CHOICE: R123 leaves it to the host whether it then hands the output on, and D8 only keeps the bytes (log 23). -/
def State.handedOver (s : State) : Option (List Byte) := if s.status.isTerminal then some s.outseq else none

/-- One step of the machine: an iteration while a run is in progress (R111), else the host's turn. -/
def sequencerStep (s : State) : Host.Outcome State Fault Refusal :=
  match s.status with
  | .running => iteration s
  | .idle => hostTurn s
  | .halted => hostTurn s
  | .timedOut => hostTurn s
  | .faulted _ _ _ => hostTurn s

end Sys2Proof.Machine
end

