-- ==== Sys2Proof/Machine/Step.lean ====
section
/-! DEFINITION. The step of the machine, and the host's way to place one instruction under it. -/

namespace Sys2Proof.Machine

/-- One step (R111, R112; the host's turn where no run is in progress). -/
def step (s : State) : Host.Outcome State Fault Refusal := sequencerStep s

/-- The state whose very next step fetches and runs the instruction of a table word (log 12). -/
def State.withFetchWord (s : State) (nbits w : Nat) : State := s.placeWord nbits w

end Sys2Proof.Machine
end

