-- ==== Sys2Proof/Safety.lean ====
section
/-! DEFINITION. The terms in which claims are stated: what an instruction may write, what a fatal condition's record must
truly say, the invariant of the machine, and what a good end of a run is. -/

namespace Sys2Proof.Machine

/-! ## What an instruction writes -/

/-- The register an 8-bit operand names, if it names one. -/
def destOf8 : Sel8 → Option Reg8
  | .zero => none
  | .reg r => some r
  | .ind => none

/-- The register a 32-bit operand names, if it names one. -/
def destOf32 : Sel32 → Option Reg32
  | .zero => none
  | .reg r => some r
  | .seven => none

/-- The 8-bit register an instruction writes (R21). -/
def dest8 : Instr → Option Reg8
  | .mvi dst _ => destOf8 dst
  | .mv dst _ => destOf8 dst
  | .mvi32 _ _ => none
  | .mv32 _ _ => none
  | .halt => none
  | .out => none
  | .jez _ => none
  | .jnz _ => none
  | .cmp => some .f
  | .add => some .a
  | .sub => some .a
  | .xor => some .a
  | .aptr _ => none

/-- The 32-bit register an instruction writes, beside the advance of `pc` (R24). -/
def dest32 : Instr → Option Reg32
  | .mvi _ _ => none
  | .mv _ _ => none
  | .mvi32 dst _ => destOf32 dst
  | .mv32 dst _ => destOf32 dst
  | .halt => none
  | .out => none
  | .jez _ => some .pc
  | .jnz _ => some .pc
  | .cmp => none
  | .add => none
  | .sub => none
  | .xor => none
  | .aptr _ => some .ptr

/-- The address an instruction stores one byte to: `ptr + c`, for a destination `(ptr+c)` (R59, R141). -/
def storeAddress (i : Instr) (s : State) : Option Nat :=
  match i with
  | .mvi dst _ => if dst = .ind then some (effectiveAddress s) else none
  | .mv dst _ => if dst = .ind then some (effectiveAddress s) else none
  | .mvi32 _ _ => none
  | .mv32 _ _ => none
  | .halt => none
  | .out => none
  | .jez _ => none
  | .jnz _ => none
  | .cmp => none
  | .add => none
  | .sub => none
  | .xor => none
  | .aptr _ => none

/-! ## States side by side -/

/-- The two states hold the same registers, memory, output and instruction count. -/
def SameCore (s t : State) : Prop :=
  s.x8 = t.x8 ∧ s.x32 = t.x32 ∧ s.mem = t.mem ∧ s.outseq = t.outseq ∧ s.icount = t.icount

/-- A run is in progress and the next iteration's `wd` is false. -/
def Fetches (s : State) : Prop := s.status = .running ∧ watchdogFires s = false

/-- The state an iteration leaves when it raises a fatal condition: nothing but the status has changed, and the
watchdog's sample has been taken (R207). -/
def faultedFrom (s : State) (kind : FatalKind) (info : FaultInfo) : State :=
  { takeSample s with status := .faulted kind s.x32.pc info }

/-- Every instruction with this opcode byte raises OutOfBounds, before any effect, where its `len` bytes do not all lie
in memory (R117). -/
def FaultsPastEnd (b : Byte) (len : Nat) : Prop :=
  ∀ s : State, Fetches s → s.mem.read? s.x32.pc.toNat = some b → s.mem.size < s.x32.pc.toNat + len →
    step s = .next (faultedFrom s .outOfBounds (.extentAddress (s.x32.pc.toNat + len - 1)))

/-! ## What a fatal condition's record says -/

/-- The record of a fatal condition is true of the state it left (R201, R202): the byte at `ia` is what it says, the
address lies outside the memory, the selector is invalid, the sum does not fit. -/
def RecordTrue (s : State) (ia : Nat) : FaultInfo → Prop
  | .opcodeByte b => s.mem.read? ia = some b ∧ decodeByte b = none
  | .fetchAddress n => n = ia ∧ s.mem.size ≤ n
  | .extentAddress n =>
    ∃ b mn len, s.mem.read? ia = some b ∧ decodeByte b = some (mn, len) ∧ n + 1 = ia + len ∧ s.mem.size ≤ n
  | .selector =>
    ∃ i rest, decode (bytesFrom s.mem 5 ia) = .ok (i, rest) ∧ i.selectorsValid = false
  | .dataAddress n => n = effectiveAddress s ∧ s.mem.size ≤ n
  | .ptrOverflow =>
    ∃ imm8 rest, decode (bytesFrom s.mem 5 ia) = .ok (.aptr imm8, rest) ∧ 2 ^ 32 ≤ s.x32.ptr.toNat + imm8.toNat

/-! ## The invariant -/

/-- What holds of the machine between any two steps. -/
structure Inv (s : State) : Prop where
  /-- the memory is in canonical form, `MEMSIZE < 2^32` (R51; log 6) -/
  memory_wf : s.mem.wf = true
  /-- in IDLE everything but `pc`, `ptr` and the image has its reset value (R36, R110) -/
  idle_reset : s.status = .idle →
    s.x8 = State.reset.x8 ∧ s.x32.la = 0 ∧ s.x32.lb = 0 ∧ s.x32.lc = 0 ∧ s.x32.ld = 0 ∧ s.outseq = [] ∧ s.icount = 0
  /-- a run completes at most `MAX_INSTR` instructions (R211) -/
  count_bound : ∀ n, s.watchdog = .maxInstr n → s.icount ≤ n
  /-- at most one output byte per completed instruction (R119, R120) -/
  output_bound : s.outseq.length ≤ s.icount
  /-- a halted run has executed the HALT before `pc` (R123, R182) -/
  halted_at_halt : s.status = .halted → ∃ ia, s.x32.pc.toNat = ia + 1 ∧ s.mem.read? ia = some 0x01#8
  /-- a failed run's record is true (R201, R202, R207) -/
  record_true : ∀ kind ia info, s.status = .faulted kind ia info → kind = info.kind ∧ RecordTrue s ia.toNat info

/-! ## Ends of a run -/

/-- How many more iterations the watchdog lets begin: the samples to come, or the instructions still allowed (R211, R212). -/
def iterationsLeft (s : State) : Nat :=
  match s.watchdog with
  | .unset => Config.defaultTimeout s.resets - s.icount
  | .wallClock samples => samples.length
  | .maxInstr n => n - s.icount

/-- The run from `s` ends HALTED with this output: the only good end of a run (R207, R213). -/
def HaltsWith (s : State) (output : List Byte) : Prop :=
  ∃ n t, Host.Core.run Sys2Proof.core n s = .next t ∧ t.status = .halted ∧ t.outseq = output

end Sys2Proof.Machine
end

