-- ==== Sys2Proof/Certificates/Slice0/Obligations.lean ====
section
/-! DEFINITION. The statements about this model, for the provers. "log n" is `notes/assumptions/n.md`; a clause that rests
on a choice of the model says so. "Dn" is a decision of `92_eei_decisions.md`: the spec's own choice where its source is
silent. A FAULTED state given whole holds `pc = ia`, which is D7's choice wherever it is said (log 2). -/

open Sys2Proof Sys2Proof.Machine

/-! ## Encoding and decoding -/

/-- R81, R86: decoding the encoding of a well-formed instruction gives it back, whatever follows it. -/
def Obligations.DecodeOfEncodeIsTheInstruction : Prop :=
  ∀ (i : Instr) (rest : List Byte), i.wellFormed = true → decode (encode i ++ rest) = .ok (i, rest)

/-- R81, R83: what the decoder reads is a well-formed instruction whose encoding is the bytes it has read: no bit of
them is ignored. -/
def Obligations.DecodedBytesAreItsEncoding : Prop :=
  ∀ (bytes rest : List Byte) (i : Instr), decode bytes = .ok (i, rest) →
    i.wellFormed = true ∧ bytes = encode i ++ rest

/-- R81, R85: words written out bit by bit from the spec's encodings, one or more a family. -/
def Obligations.SampleWordsDecode : Prop :=
  decode [0b01010001#8] = .ok (.mv (.reg .b) (.reg .a), []) ∧
  decode [0b01111111#8] = .ok (.mv .ind .ind, []) ∧
  decode [0b01001000#8, 0b01000001#8] = .ok (.mvi (.reg .a) 65#8, []) ∧
  decode [0b10001110#8] = .ok (.mv32 (.reg .la) (.reg .pc), []) ∧
  decode [0b10010000#8, 0b01111000#8, 0b01010110#8, 0b00110100#8, 0b00010010#8] =
    .ok (.mvi32 (.reg .lb) 0x12345678#32, []) ∧
  decode [0b11000010#8] = .ok (.add, []) ∧
  decode [0b11100001#8, 0b00001010#8] = .ok (.aptr 10#8, []) ∧
  decode [0b00100001#8, 0b01111000#8, 0b01010110#8, 0b00110100#8, 0b00010010#8] = .ok (.jez 0x12345678#32, []) ∧
  decode [0b00000001#8] = .ok (.halt, []) ∧
  decode [0b00000010#8] = .ok (.out, []) ∧
  decode [0b00000000#8] = .error (.unsupportedOpcode 0#8)

/-- R84: step 1 of the decoding never fails, and the decoder hands on `dst = b[5:3]` and `src = b[2:0]` unchecked. -/
def Obligations.MoveFamilyBytesAllDecode : Prop :=
  ∀ b : Byte,
    (b &&& 0xC0#8 = 0x40#8 →
      if b &&& 0x07#8 = 0 then
        decodeByte b = some (.mvi, 2) ∧
          ∀ i0 rest, decode (b :: i0 :: rest) = .ok (.mvi (Sel8.ofBits ((b >>> 3).setWidth 3)) i0, rest)
      else
        decodeByte b = some (.mv, 1) ∧
          ∀ rest, decode (b :: rest) =
            .ok (.mv (Sel8.ofBits ((b >>> 3).setWidth 3)) (Sel8.ofBits (b.setWidth 3)), rest)) ∧
    (b &&& 0xC0#8 = 0x80#8 →
      if b &&& 0x07#8 = 0 then
        decodeByte b = some (.mvi32, 5) ∧
          ∀ i0 i1 i2 i3 rest, decode (b :: i0 :: i1 :: i2 :: i3 :: rest) =
            .ok (.mvi32 (Sel32.ofBits ((b >>> 3).setWidth 3)) (leWord i0 i1 i2 i3), rest)
      else
        decodeByte b = some (.mv32, 1) ∧
          ∀ rest, decode (b :: rest) =
            .ok (.mv32 (Sel32.ofBits ((b >>> 3).setWidth 3)) (Sel32.ofBits (b.setWidth 3)), rest))

/-- R85: the fixed opcodes are exactly the nine of the table, matched on all eight bits; they have top bits 00 or 11, so
they do not compete with the move family. -/
def Obligations.FixedOpcodeTableIsComplete : Prop :=
  (∀ (b : Byte) (mn : Mnemonic) (len : Nat), b &&& 0xC0#8 = 0x00#8 ∨ b &&& 0xC0#8 = 0xC0#8 →
    (decodeByte b = some (mn, len) ↔
      (b, mn, len) ∈ [(0x01#8, Mnemonic.halt, 1), (0x02#8, .out, 1), (0x21#8, .jez, 5), (0x22#8, .jnz, 5),
        (0xC1#8, .cmp, 1), (0xC2#8, .add, 1), (0xC3#8, .sub, 1), (0xC4#8, .xor, 1), (0xE1#8, .aptr, 2)])) ∧
  ∀ b ∈ [0x01#8, 0x02#8, 0x21#8, 0x22#8, 0xC1#8, 0xC2#8, 0xC3#8, 0xC4#8, 0xE1#8],
    b &&& 0xC0#8 = 0x00#8 ∨ b &&& 0xC0#8 = 0xC0#8

/-- R92: of the 256 opcode bytes, 9 are fixed opcodes, 49, 7, 36 and 6 are executable MV, MVI, MV32 and MVI32 forms, 30
decode with an invalid selector, and 119 decode to nothing. -/
def Obligations.OpcodeByteCounts : Prop :=
  let bytes := (List.range 256).map (BitVec.ofNat 8)
  let read := fun (b : Byte) => match decode [b, 0, 0, 0, 0] with
    | .ok (i, _) => some i
    | .error _ => none
  let executable := fun (mn : Mnemonic) =>
    (bytes.filter fun b => (read b).any fun i => i.mnemonic == mn && i.selectorsValid).length
  executable .halt + executable .out + executable .jez + executable .jnz + executable .cmp + executable .add +
      executable .sub + executable .xor + executable .aptr = 9 ∧
    executable .mv = 49 ∧ executable .mvi = 7 ∧ executable .mv32 = 36 ∧ executable .mvi32 = 6 ∧
    (bytes.filter fun b => (read b).any fun i => i.selectorsValid).length = 107 ∧
    (bytes.filter fun b => (read b).any fun i => !i.selectorsValid).length = 30 ∧
    (bytes.filter fun b => (decodeByte b).isNone).length = 119

/-- R55: the imm32 of the instruction fetched at `ia` is the four memory bytes at `ia+1 .. ia+4`, least significant
first. -/
def Obligations.Imm32IsLittleEndianFromMemory : Prop :=
  (∀ (s : State) (i : Instr) (v : Word), fetch s = .ok i →
    (i = .jez v ∨ i = .jnz v ∨ ∃ dst, i = .mvi32 dst v) →
    ∃ b1 b2 b3 b4 : Byte,
      s.mem.read? (s.x32.pc.toNat + 1) = some b1 ∧ s.mem.read? (s.x32.pc.toNat + 2) = some b2 ∧
      s.mem.read? (s.x32.pc.toNat + 3) = some b3 ∧ s.mem.read? (s.x32.pc.toNat + 4) = some b4 ∧
      v.toNat = b1.toNat + 2 ^ 8 * b2.toNat + 2 ^ 16 * b3.toNat + 2 ^ 24 * b4.toNat ∧
      memRead32 (s.x32.pc.toNat + 1) s = .ok v) ∧
  decode [0x21#8, 0x78#8, 0x56#8, 0x34#8, 0x12#8] = .ok (.jez 0x12345678#32, [])

/-- R87: the imm8 of the instruction fetched at `ia` is the memory byte at `ia+1`. -/
def Obligations.Imm8IsTheFollowingByte : Prop :=
  ∀ (s : State) (i : Instr) (v : Byte), fetch s = .ok i → (i = .aptr v ∨ ∃ dst, i = .mvi dst v) →
    s.mem.read? (s.x32.pc.toNat + 1) = some v ∧ memRead (s.x32.pc.toNat + 1) s = .ok v

/-- R57: the defective reader is off, and the two readers differ exactly when the third and fourth bytes differ (that the
switch is off is the spec's default, log 5). -/
def Obligations.DefectiveReaderDiffersExactlyOnUnequalBytes : Prop :=
  Config.imm32Defect = false ∧
  ∀ b1 b2 b3 b4 : Byte,
    (imm32OfBytes true b1 b2 b3 b4).toNat =
      b1.toNat + 2 ^ 8 * b2.toNat + 2 ^ 16 * b4.toNat + 2 ^ 24 * b4.toNat ∧
    (imm32OfBytes true b1 b2 b3 b4 ≠ imm32OfBytes false b1 b2 b3 b4 ↔ b3 ≠ b4)

/-! ## Reset, boot and the host -/

/-- R240: reset, in whatever state it comes, and the state the model calls reset. Nothing but reset leaves a terminal
status (D15), and reset empties the output (D8). -/
def Obligations.ResetLeavesTheResetState : Prop :=
  (∀ s : State, ∃ t, transact .reset s = .next t ∧
    (∀ r, t.x8.get r = 0) ∧ (∀ r, t.x32.get r = 0) ∧ t.outseq = [] ∧ t.icount = 0 ∧ t.status = .idle) ∧
  ((∀ r, State.reset.x8.get r = 0) ∧ (∀ r, State.reset.x32.get r = 0) ∧ State.reset.outseq = [] ∧
    State.reset.icount = 0 ∧ State.reset.status = .idle) ∧
  ∀ (s t : State) (m : HostMove), s.status.isTerminal = true → transact m s = .next t → m = .reset

/-- R241: reset does not touch the memory; loading an image makes `MEMSIZE` its length and every byte the image's;
preloading, providing a watchdog and starting touch no byte. -/
def Obligations.MemoryIsTheLoadedImage : Prop :=
  (∀ s t : State, transact .reset s = .next t → t.mem = s.mem) ∧
  (∀ (s : State) (image : List Byte), s.status = .idle → image.length < 2 ^ 32 →
    ∃ t, transact (.loadImage image) s = .next t ∧ t.mem.size = image.length ∧ ∀ k, t.mem.read? k = image[k]?) ∧
  ∀ (s t : State) (m : HostMove), transact m s = .next t → (∀ image, m ≠ .loadImage image) → t.mem = s.mem

/-- R110 (D15): a run is started from IDLE, and from no other status. -/
def Obligations.RunStartsFromIdleOnly : Prop :=
  ∀ s : State,
    (s.status = .idle → transact .start s = .next { s with status := .running }) ∧
    (s.status ≠ .idle → ∃ why, transact .start s = .refused why)

/-- R35, R124: outside IDLE the host can neither load, preload nor provide a watchdog; the model refuses the move by name
(log 18). -/
def Obligations.HostMovesOutsideIdleAreRefused : Prop :=
  ∀ s : State, s.status ≠ .idle →
    (∀ image, image.length < 2 ^ 32 → transact (.loadImage image) s = .refused .hostMoveOutsideIdle) ∧
    (∀ pcInit ptrInit, transact (.preload pcInit ptrInit) s = .refused .hostMoveOutsideIdle) ∧
    ∀ w, transact (.provideWatchdog w) s = .refused .hostMoveOutsideIdle

/-- R242: the host's boot sequence, pending at reset, performed by the machine's steps: after it the run is in progress
with the image in memory and the preloads in `pc` and `ptr` (that pending moves stand in the state is the model's,
log 11). -/
def Obligations.BootSequenceReachesTheRun : Prop :=
  ∀ (s : State) (image : List Byte) (pcInit ptrInit : Word) (w : Watchdog), image.length < 2 ^ 32 →
    s.status ≠ .running →
    s.hostMoves = [.reset, .loadImage image, .preload pcInit ptrInit, .provideWatchdog w, .start] →
    ∃ t, Host.Core.run Sys2Proof.core 5 s = .next t ∧
      t.status = .running ∧ t.x32.pc = pcInit ∧ t.x32.ptr = ptrInit ∧ t.watchdog = w ∧ t.hostMoves = [] ∧
      (∀ r, t.x8.get r = 0) ∧ (∀ r, r ≠ .pc → r ≠ .ptr → t.x32.get r = 0) ∧ t.outseq = [] ∧ t.icount = 0 ∧
      t.mem.size = image.length ∧ ∀ k, t.mem.read? k = image[k]?

/-- R30, R208: a terminal status is absorbing. A step leaves it only by the host's reset. -/
def Obligations.TerminalStatusIsLeftByResetOnly : Prop :=
  ∀ s t : State, s.status.isTerminal = true → step s = .next t →
    (s.hostMoves = [] ∧ t = s) ∨ (∃ rest, s.hostMoves = .reset :: rest ∧ t.status = .idle ∧ t.hostMoves = rest)

/-- R192, R123: the host receives the completion signal and the output when the run has ended, and nothing before. That the
output is handed over after FAULTED too is the model's choice (log 23): R123 calls it the host's affair, D8 only keeps the
bytes. -/
def Obligations.OutputIsHandedOverAfterTheRunOnly : Prop :=
  ∀ s t : State, s.status = .running → step s = .next t →
    s.handedOver = none ∧ s.completion = none ∧
    (t.status = .running → t.handedOver = none ∧ t.completion = none) ∧
    (t.status ≠ .running → t.handedOver = some t.outseq ∧ t.completion = some t.status)

/-! ## The iteration -/

/-- R114 (the check point is D6's): the watchdog comes first. Where `wd` is true nothing is fetched and everything keeps
its value. `wd` is
`icount >= MAX_INSTR` under the count reading; under the wall-clock reading it is the next sample of the list that holds the
oracle, and the list moves on (log 8). -/
def Obligations.WatchdogTimesOutBeforeTheFetch : Prop :=
  (∀ s : State, s.status = .running → watchdogFires s = true →
    ∃ t, step s = .next t ∧ t.status = .timedOut ∧ SameCore s t) ∧
  (∀ (s : State) (n : Nat), s.watchdog = .maxInstr n → (watchdogFires s = true ↔ s.icount ≥ n)) ∧
  ∀ (s : State) (wd : Bool) (later : List Bool), s.watchdog = .wallClock (wd :: later) →
    watchdogFires s = wd ∧ (takeSample s).watchdog = .wallClock later

/-- R112: where the bytes at `pc` decode to an instruction, a step of a run whose watchdog does not fire is that
instruction's meaning, in the state the iteration began in with the watchdog's sample taken. -/
def Obligations.StepRunsTheDecodedInstruction : Prop :=
  ∀ (s : State) (i : Instr) (rest : List Byte), Fetches s →
    decode (fetchWindow s) = .ok (i, rest) →
    step s = exec i (takeSample s) ∧ SameCore s (takeSample s) ∧ (takeSample s).status = s.status ∧
      ∀ k, k < 5 → (fetchWindow s)[k]? = s.mem.read? (s.x32.pc.toNat + k)

/-- R121, and log 1: while a run is in progress a step always answers a next state, because a fatal condition is a next
state of the model and no fault. -/
def Obligations.RunningStepAnswersNext : Prop :=
  (∀ s : State, s.status = .running → ∃ t, step s = .next t) ∧ ∀ (i : Instr) (s : State), ∃ t, exec i s = .next t

/-- R115: an opcode fetch at or above `MEMSIZE` is OutOfBounds. -/
def Obligations.OpcodeFetchOutsideMemoryFaults : Prop :=
  ∀ s : State, Fetches s → s.mem.size ≤ s.x32.pc.toNat →
    step s = .next (faultedFrom s .outOfBounds (.fetchAddress s.x32.pc.toNat))

/-- R201: an opcode byte that decodes to nothing is UnsupportedOpcode, and it is recorded with its address. -/
def Obligations.UnknownOpcodeFaults : Prop :=
  ∀ (s : State) (b : Byte), Fetches s → s.mem.read? s.x32.pc.toNat = some b → decodeByte b = none →
    step s = .next (faultedFrom s .unsupportedOpcode (.opcodeByte b))

/-- R117 (D2): an instruction that does not lie in memory whole is OutOfBounds before any effect, whatever it would do. -/
def Obligations.InstructionPastMemoryFaults : Prop :=
  ∀ (b : Byte) (mn : Mnemonic) (len : Nat), decodeByte b = some (mn, len) → FaultsPastEnd b len

/-- R91 (D12): the opcode bytes that decode and name an operand outside its family's valid range are these thirty, and
executing one is OutOfBounds. -/
def Obligations.InvalidSelectorFaults : Prop :=
  (∀ (s : State) (i : Instr) (rest : List Byte), Fetches s → decode (fetchWindow s) = .ok (i, rest) →
    i.selectorsValid = false → step s = .next (faultedFrom s .outOfBounds .selector)) ∧
  ∀ (b : Byte) (i0 i1 i2 i3 : Byte) (i : Instr) (rest : List Byte),
    decode [b, i0, i1, i2, i3] = .ok (i, rest) →
    (i.selectorsValid = false ↔
      b ∈ [0x40#8, 0x41#8, 0x42#8, 0x43#8, 0x44#8, 0x45#8, 0x46#8, 0x47#8,
        0x80#8, 0x81#8, 0x82#8, 0x83#8, 0x84#8, 0x85#8, 0x86#8, 0x87#8,
        0x8F#8, 0x97#8, 0x9F#8, 0xA7#8, 0xAF#8, 0xB7#8,
        0xB8#8, 0xB9#8, 0xBA#8, 0xBB#8, 0xBC#8, 0xBD#8, 0xBE#8, 0xBF#8])

/-- R207 (D7): a fatal condition is precise. Registers, memory and output are as they were when the iteration began, `icount`
is not incremented, and the status records the kind, the address of the instruction and the info. -/
def Obligations.FatalConditionIsPrecise : Prop :=
  ∀ (s t : State) (kind : FatalKind) (ia : Word) (info : FaultInfo), s.status = .running → step s = .next t →
    t.status = .faulted kind ia info →
    SameCore s t ∧ ia = s.x32.pc ∧ kind = info.kind ∧ t.hostMoves = s.hostMoves ∧
      (kind = .unsupportedOpcode ↔ ∃ b, info = .opcodeByte b) ∧ (s.hostMoves = [] → step t = .next t)

/-- R31, R120: `icount` counts the completed instructions, HALT included, and nothing else. -/
def Obligations.CompletedInstructionsAreCounted : Prop :=
  ∀ s t : State, s.status = .running → step s = .next t →
    ((t.status = .running ∨ t.status = .halted) → t.icount = s.icount + 1) ∧
    ((t.status ≠ .running ∧ t.status ≠ .halted) → t.icount = s.icount)

/-- R30, R182: a run ends HALTED exactly by executing the byte 0x01. -/
def Obligations.HaltedExactlyByTheHaltByte : Prop :=
  ∀ s t : State, s.status = .running → step s = .next t →
    (t.status = .halted ↔ watchdogFires s = false ∧ s.mem.read? s.x32.pc.toNat = some 0x01#8)

/-! ## The move family -/

/-- R142: MV, every form. The source is read before the destination is written; a copy of `(ptr+c)` to itself changes
nothing. That the address `ptr + c` is unsigned and not reduced is D5's and D3's (log 3, log 4), that the selectors are
checked first D12's (log 16), that `pc = ia` after a fatal condition D7's (log 2). -/
def Obligations.MvCopiesAByte : Prop :=
  (∀ dst src, encode (.mv dst src) = [BitVec.ofNat 8 (0x40 + 8 * dst.bits.toNat + src.bits.toNat)]) ∧
  ∀ s : State,
    (∀ p q, exec (.mv (.reg p) (.reg q)) s = .next { s with
      x8 := s.x8.set p (s.x8.get q), x32.pc := s.x32.pc + 1, icount := s.icount + 1 }) ∧
    (∀ p v, s.mem.read? (s.x32.ptr.toNat + s.x8.c.toNat) = some v →
      exec (.mv (.reg p) .ind) s = .next { s with
        x8 := s.x8.set p v, x32.pc := s.x32.pc + 1, icount := s.icount + 1 }) ∧
    (∀ q, s.x32.ptr.toNat + s.x8.c.toNat < s.mem.size →
      exec (.mv .ind (.reg q)) s = .next { s with
        mem := s.mem.write (s.x32.ptr.toNat + s.x8.c.toNat) (s.x8.get q),
        x32.pc := s.x32.pc + 1, icount := s.icount + 1 }) ∧
    (s.mem.wf = true → s.x32.ptr.toNat + s.x8.c.toNat < s.mem.size →
      exec (.mv .ind .ind) s = .next { s with x32.pc := s.x32.pc + 1, icount := s.icount + 1 }) ∧
    (∀ src, exec (.mv .zero src) s = .next { s with status := .faulted .outOfBounds s.x32.pc .selector }) ∧
    (∀ dst src, dst ≠ .zero → src ≠ .zero → (dst = .ind ∨ src = .ind) →
      s.mem.size ≤ s.x32.ptr.toNat + s.x8.c.toNat →
      exec (.mv dst src) s = .next { s with
        status := .faulted .outOfBounds s.x32.pc (.dataAddress (s.x32.ptr.toNat + s.x8.c.toNat)) })

/-- R143: MVI, every form. The address is D5's and D3's (log 3, log 4), the selector check D12's (log 16), `pc = ia` after a
fatal condition D7's (log 2), the extent check D2's (log 19). -/
def Obligations.MviWritesTheImmediateByte : Prop :=
  (∀ dst imm8, encode (.mvi dst imm8) = [BitVec.ofNat 8 (0x40 + 8 * dst.bits.toNat), imm8]) ∧
  (∀ (s : State) (imm8 : Byte),
    (∀ p, exec (.mvi (.reg p) imm8) s = .next { s with
      x8 := s.x8.set p imm8, x32.pc := s.x32.pc + 2, icount := s.icount + 1 }) ∧
    (s.x32.ptr.toNat + s.x8.c.toNat < s.mem.size →
      exec (.mvi .ind imm8) s = .next { s with
        mem := s.mem.write (s.x32.ptr.toNat + s.x8.c.toNat) imm8,
        x32.pc := s.x32.pc + 2, icount := s.icount + 1 }) ∧
    exec (.mvi .zero imm8) s = .next { s with status := .faulted .outOfBounds s.x32.pc .selector } ∧
    (s.mem.size ≤ s.x32.ptr.toNat + s.x8.c.toNat →
      exec (.mvi .ind imm8) s = .next { s with
        status := .faulted .outOfBounds s.x32.pc (.dataAddress (s.x32.ptr.toNat + s.x8.c.toNat)) })) ∧
  ∀ dst : Sel8, FaultsPastEnd (BitVec.ofNat 8 (0x40 + 8 * dst.bits.toNat)) 2

/-- R144: MV32, every form. As a source `pc` reads the advanced value; as a destination it is a jump that overrides the
advance. (R144 marks the former [derived]; the selector check is D12's, log 16; `pc = ia` after it D7's, log 2.) -/
def Obligations.Mv32CopiesAWord : Prop :=
  (∀ dst src, encode (.mv32 dst src) = [BitVec.ofNat 8 (0x80 + 8 * dst.bits.toNat + src.bits.toNat)]) ∧
  ∀ s : State,
    (∀ p q, p ≠ .pc → exec (.mv32 (.reg p) (.reg q)) s = .next { s with
      x32 := { s.x32.set p (if q = .pc then s.x32.pc + 1 else s.x32.get q) with pc := s.x32.pc + 1 },
      icount := s.icount + 1 }) ∧
    (∀ q, exec (.mv32 (.reg .pc) (.reg q)) s = .next { s with
      x32.pc := if q = .pc then s.x32.pc + 1 else s.x32.get q, icount := s.icount + 1 }) ∧
    (∀ dst src, dst = .zero ∨ dst = .seven ∨ src = .seven →
      exec (.mv32 dst src) s = .next { s with status := .faulted .outOfBounds s.x32.pc .selector })

/-- R145: MVI32, every form. To `pc` it is the unconditional jump. The selector check is D12's (log 16), `pc = ia` after a
fatal condition D7's (log 2), the extent check D2's (log 19). -/
def Obligations.Mvi32WritesTheImmediateWord : Prop :=
  (∀ dst imm32, encode (.mvi32 dst imm32) = [BitVec.ofNat 8 (0x80 + 8 * dst.bits.toNat),
    BitVec.ofNat 8 imm32.toNat, BitVec.ofNat 8 (imm32.toNat / 2 ^ 8), BitVec.ofNat 8 (imm32.toNat / 2 ^ 16),
    BitVec.ofNat 8 (imm32.toNat / 2 ^ 24)]) ∧
  (∀ (s : State) (imm32 : Word),
    (∀ p, p ≠ .pc → exec (.mvi32 (.reg p) imm32) s = .next { s with
      x32 := { s.x32.set p imm32 with pc := s.x32.pc + 5 }, icount := s.icount + 1 }) ∧
    exec (.mvi32 (.reg .pc) imm32) s = .next { s with x32.pc := imm32, icount := s.icount + 1 } ∧
    (∀ dst, dst = .zero ∨ dst = .seven →
      exec (.mvi32 dst imm32) s = .next { s with status := .faulted .outOfBounds s.x32.pc .selector })) ∧
  ∀ dst : Sel32, FaultsPastEnd (BitVec.ofNat 8 (0x80 + 8 * dst.bits.toNat)) 5

/-! ## Arithmetic, logic, compare, pointer -/

/-- R160: ADD. -/
def Obligations.AddIsModulo256 : Prop :=
  encode .add = [0xC2#8] ∧
  ∀ s : State, exec .add s = .next { s with
    x8.a := BitVec.ofNat 8 ((s.x8.a.toNat + s.x8.b.toNat) % 256), x32.pc := s.x32.pc + 1, icount := s.icount + 1 }

/-- R161: SUB. -/
def Obligations.SubIsModulo256 : Prop :=
  encode .sub = [0xC3#8] ∧
  ∀ s : State, exec .sub s = .next { s with
    x8.a := BitVec.ofNat 8 (if s.x8.b.toNat ≤ s.x8.a.toNat then s.x8.a.toNat - s.x8.b.toNat
      else s.x8.a.toNat + 256 - s.x8.b.toNat),
    x32.pc := s.x32.pc + 1, icount := s.icount + 1 }

/-- R162: XOR, bit by bit. -/
def Obligations.XorIsBitwise : Prop :=
  encode .xor = [0xC4#8] ∧
  ∀ s : State, ∃ v : Byte, exec .xor s = .next { s with
      x8.a := v, x32.pc := s.x32.pc + 1, icount := s.icount + 1 } ∧
    ∀ k, v.getLsbD k = (s.x8.a.getLsbD k ^^ s.x8.b.getLsbD k)

/-- R163: CMP. -/
def Obligations.CmpWritesEqualityToF : Prop :=
  encode .cmp = [0xC1#8] ∧
  ∀ s : State, exec .cmp s = .next { s with
    x8.f := if s.x8.a = s.x8.b then 0x00#8 else 0x01#8, x32.pc := s.x32.pc + 1, icount := s.icount + 1 }

/-- R164: APTR. The sum is of natural numbers and the immediate unsigned (D5, log 3); where the sum does not fit in 32 bits
it is OutOfBounds (D4, log 4), with `pc = ia` (D7, log 2). The extent check is D2's (log 19). -/
def Obligations.AptrAddsToPtr : Prop :=
  (∀ imm8, encode (.aptr imm8) = [0xE1#8, imm8]) ∧
  (∀ (s : State) (imm8 : Byte),
    (s.x32.ptr.toNat + imm8.toNat < 2 ^ 32 →
      ∃ v : Word, v.toNat = s.x32.ptr.toNat + imm8.toNat ∧
        exec (.aptr imm8) s = .next { s with
          x32.ptr := v, x32.pc := s.x32.pc + 2, icount := s.icount + 1 }) ∧
    (2 ^ 32 ≤ s.x32.ptr.toNat + imm8.toNat →
      exec (.aptr imm8) s = .next { s with status := .faulted .outOfBounds s.x32.pc .ptrOverflow })) ∧
  FaultsPastEnd 0xE1#8 2

/-! ## Control transfer and output -/

/-- R180: JEZ. That the immediate must exist, taken or not, is D2's (log 19). -/
def Obligations.JezJumpsWhenFIsZero : Prop :=
  (∀ imm32, encode (.jez imm32) = [0x21#8, BitVec.ofNat 8 imm32.toNat, BitVec.ofNat 8 (imm32.toNat / 2 ^ 8),
    BitVec.ofNat 8 (imm32.toNat / 2 ^ 16), BitVec.ofNat 8 (imm32.toNat / 2 ^ 24)]) ∧
  (∀ (s : State) (imm32 : Word),
    (s.x8.f = 0 → exec (.jez imm32) s = .next { s with x32.pc := imm32, icount := s.icount + 1 }) ∧
    (s.x8.f ≠ 0 → exec (.jez imm32) s = .next { s with x32.pc := s.x32.pc + 5, icount := s.icount + 1 })) ∧
  FaultsPastEnd 0x21#8 5

/-- R181: JNZ. That the immediate must exist, taken or not, is D2's (log 19). -/
def Obligations.JnzJumpsWhenFIsNotZero : Prop :=
  (∀ imm32, encode (.jnz imm32) = [0x22#8, BitVec.ofNat 8 imm32.toNat, BitVec.ofNat 8 (imm32.toNat / 2 ^ 8),
    BitVec.ofNat 8 (imm32.toNat / 2 ^ 16), BitVec.ofNat 8 (imm32.toNat / 2 ^ 24)]) ∧
  (∀ (s : State) (imm32 : Word),
    (s.x8.f ≠ 0 → exec (.jnz imm32) s = .next { s with x32.pc := imm32, icount := s.icount + 1 }) ∧
    (s.x8.f = 0 → exec (.jnz imm32) s = .next { s with x32.pc := s.x32.pc + 5, icount := s.icount + 1 })) ∧
  FaultsPastEnd 0x22#8 5

/-- R182: HALT. The iteration completes, no further iteration happens, and the host receives the normal termination and the
output. That the state then stays is D15's, and, as steps of the model with no move pending, log 11's and log 13's. -/
def Obligations.HaltEndsTheRun : Prop :=
  encode .halt = [0x01#8] ∧
  ∀ s : State, ∃ t, exec .halt s = .next t ∧
    t = { s with status := .halted, x32.pc := s.x32.pc + 1, icount := s.icount + 1 } ∧
    t.completion = some .halted ∧ t.handedOver = some s.outseq ∧
    (s.hostMoves = [] → ∀ n, Host.Core.run Sys2Proof.core n t = .next t)

/-- R190: OUT. -/
def Obligations.OutAppendsA : Prop :=
  encode .out = [0x02#8] ∧
  ∀ s : State, exec .out s = .next { s with
    outseq := s.outseq ++ [s.x8.a], x32.pc := s.x32.pc + 1, icount := s.icount + 1 }

/-! ## Frames -/

/-- What each instruction leaves unchanged, whichever next state it answers. 8-bit registers: all but the destination (the
condition register `f` is one of them). 32-bit registers: all but the destination and `pc`. Memory: every byte but the one
stored to, and `MEMSIZE`. Output: unchanged but by OUT. Status: unchanged but by HALT and by a fatal condition. The host's
inputs: unchanged. -/
def Obligations.FrameOfEveryInstruction : Prop :=
  ∀ (i : Instr) (s t : State), exec i s = .next t →
    (∀ r, dest8 i ≠ some r → t.x8.get r = s.x8.get r) ∧
    (∀ r, r ≠ .pc → dest32 i ≠ some r → t.x32.get r = s.x32.get r) ∧
    t.mem.size = s.mem.size ∧
    (storeAddress i s = none → t.mem = s.mem) ∧
    (∀ a, storeAddress i s = some a → s.mem.wf = true → ∀ b, b ≠ a → t.mem.read? b = s.mem.read? b) ∧
    (i ≠ .out → t.outseq = s.outseq) ∧
    (i ≠ .halt → t.status = s.status ∨ ∃ info, t.status = .faulted info.kind s.x32.pc info) ∧
    t.watchdog = s.watchdog ∧ t.resets = s.resets ∧ t.hostMoves = s.hostMoves

/-- R183: after an instruction `pc` is the advanced value, or the target of a jump that was taken, or (after a fatal
condition) what it was. -/
def Obligations.PcChangesOnlyAsListed : Prop :=
  ∀ (i : Instr) (s t : State), exec i s = .next t →
    t.x32.pc = s.x32.pc + BitVec.ofNat 32 i.length ∨
    (∃ target, i = .jez target ∧ s.x8.f = 0 ∧ t.x32.pc = target) ∨
    (∃ target, i = .jnz target ∧ s.x8.f ≠ 0 ∧ t.x32.pc = target) ∨
    (∃ target, i = .mvi32 (.reg .pc) target ∧ t.x32.pc = target) ∨
    (∃ q, i = .mv32 (.reg .pc) (.reg q) ∧ q ≠ .pc ∧ t.x32.pc = s.x32.get q) ∨
    (t.x32.pc = s.x32.pc ∧ ∃ info, t.status = .faulted info.kind s.x32.pc info)

/-- R23: the register files do not mix. Two states that agree but for the 8-bit registers' contents agree in the 32-bit
registers afterwards, and the other way round, where both complete the instruction; `pc` after JEZ and JNZ is the
exception. -/
def Obligations.RegisterFilesDoNotMix : Prop :=
  (∀ (i : Instr) (s t s' t' : State), (∀ target, i ≠ .jez target ∧ i ≠ .jnz target) →
    s.x32 = s'.x32 → exec i s = .next t → exec i s' = .next t' →
    t.icount = s.icount + 1 → t'.icount = s'.icount + 1 → t.x32 = t'.x32) ∧
  ∀ (i : Instr) (s t s' t' : State), (∀ dst, i ≠ .mv dst .ind) →
    s.x8 = s'.x8 → exec i s = .next t → exec i s' = .next t' →
    t.icount = s.icount + 1 → t'.icount = s'.icount + 1 → t.x8 = t'.x8

/-! ## Memory and output over steps -/

/-- R142, R63: a store through `(ptr+c)` and a load from it give the byte back, and the load leaves the memory alone. -/
def Obligations.StoreThenLoadGivesTheByte : Prop :=
  ∀ (s : State) (q p : Reg8), s.mem.wf = true → effectiveAddress s < s.mem.size →
    ∃ t u, exec (.mv .ind (.reg q)) s = .next t ∧ exec (.mv (.reg p) .ind) t = .next u ∧
      u.x8.get p = s.x8.get q ∧ u.mem = t.mem ∧
      t.mem.read? (effectiveAddress s) = some (s.x8.get q) ∧
      ∀ a, a ≠ effectiveAddress s → t.mem.read? a = s.mem.read? a

/-- R65: a byte written by MV or MVI is the byte the very next fetch sees, whether as opcode byte or as a later byte of the
instruction. -/
def Obligations.StoreIsSeenByTheNextFetch : Prop :=
  ∀ (i : Instr) (v : Byte) (s t : State), s.mem.wf = true →
    ((∃ q, i = .mv .ind (.reg q) ∧ v = s.x8.get q) ∨ i = .mvi .ind v) →
    effectiveAddress s < s.mem.size → exec i s = .next t →
    ∀ k, k < 5 → t.x32.pc.toNat + k = effectiveAddress s → (fetchWindow t)[k]? = some v

/-- R191: a step appends at most one byte, the byte of OUT, and retracts none; and no instruction reads the sink. -/
def Obligations.OutputIsAppendOnly : Prop :=
  (∀ s t : State, s.status = .running → step s = .next t →
    (t.outseq = s.outseq ++ [s.x8.a] ∧ s.mem.read? s.x32.pc.toNat = some 0x02#8) ∨ t.outseq = s.outseq) ∧
  ∀ (i : Instr) (s t : State) (sink : List Byte), exec i s = .next t →
    ∃ appended, t.outseq = s.outseq ++ appended ∧
      exec i { s with outseq := sink } = .next { t with outseq := sink ++ appended }

/-- R33, R59: during a run `MEMSIZE` does not change, and a step changes at most the byte at `ptr + c`. -/
def Obligations.MemoryChangesOnlyAtPtrPlusC : Prop :=
  ∀ s t : State, s.status = .running → s.mem.wf = true → step s = .next t →
    t.mem.size = s.mem.size ∧ ∀ a, a ≠ effectiveAddress s → t.mem.read? a = s.mem.read? a

/-! ## Invariants and whole runs -/

/-- The invariant of the machine is kept by every step, from every state that meets it. -/
def Obligations.EveryStepKeepsTheInvariant : Prop :=
  ∀ s t : State, Inv s → step s = .next t → Inv t

/-- The invariant is kept by every transaction of the host, a reset in the middle of a run included (R124). -/
def Obligations.EveryTransactionKeepsTheInvariant : Prop :=
  ∀ (m : HostMove) (s t : State), Inv s → transact m s = .next t → Inv t

/-- The reset state meets the invariant. -/
def Obligations.ResetMeetsTheInvariant : Prop := Inv State.reset

/-- R211 (the comparison is D6's): under the count reading a run ends within `MAX_INSTR` completed instructions: HALTED
or FAULTED if it comes to
that, and otherwise TIMED_OUT with exactly `MAX_INSTR` of them; a HALT as the last of them still halts. -/
def Obligations.MaxInstrEndsTheRun : Prop :=
  (∀ (s : State) (n : Nat), s.status = .running → s.watchdog = .maxInstr n → s.icount ≤ n → s.hostMoves = [] →
    ∃ t, Host.Core.run Sys2Proof.core (n - s.icount + 1) s = .next t ∧ t.status.isTerminal = true ∧
      t.icount ≤ n ∧ (t.status = .timedOut → t.icount = n)) ∧
  (∀ s : State, s.status = .running → s.watchdog = .maxInstr s.icount →
    ∃ t, step s = .next t ∧ t.status = .timedOut ∧ SameCore s t) ∧
  ∀ s : State, s.status = .running → s.watchdog = .maxInstr (s.icount + 1) →
    s.mem.read? s.x32.pc.toNat = some 0x01#8 →
    ∃ t, step s = .next t ∧ t.status = .halted ∧ t.icount = s.icount + 1

/-- R212: under the wall-clock reading a run ends, no later than the samples do (that they are a list which ends the run
after its last one is log 8). With the default timeout it ends no later than the free number of iterations after which that
elapses (log 9). -/
def Obligations.WallClockEndsTheRun : Prop :=
  (∀ (s : State) (samples : List Bool), s.status = .running → s.watchdog = .wallClock samples → s.hostMoves = [] →
    ∃ t, Host.Core.run Sys2Proof.core (samples.length + 1) s = .next t ∧ t.status.isTerminal = true) ∧
  ∀ s : State, s.status = .running → s.watchdog = .unset → s.hostMoves = [] →
    ∃ t, Host.Core.run Sys2Proof.core (Config.defaultTimeout s.resets - s.icount + 1) s = .next t ∧
      t.status.isTerminal = true ∧ (t.status = .timedOut → Config.defaultTimeout s.resets ≤ t.icount)

/-- R121: the watchdog can only cut a halting program short. If under one watchdog the run from `s` is HALTED after `n`
steps, and under another it is TIMED_OUT after some steps, then the latter has, in every register, in memory, in the output
and in the count, the state the former had after some `j < n` steps, and its output is an initial part of the former's. -/
def Obligations.WatchdogOnlyCutsARunShort : Prop :=
  ∀ (s t u : State) (w w' : Watchdog) (n k : Nat), s.status = .running → s.hostMoves = [] →
    Host.Core.run Sys2Proof.core n { s with watchdog := w } = .next t → t.status = .halted →
    Host.Core.run Sys2Proof.core k { s with watchdog := w' } = .next u → u.status = .timedOut →
    ∃ j v, j < n ∧ Host.Core.run Sys2Proof.core j { s with watchdog := w } = .next v ∧ v.status = .running ∧
      SameCore u v ∧ u.icount = s.icount + j ∧ u.outseq <+: t.outseq

/-- R121: the watchdog changes neither that a program halts nor what it then has output: two halting runs from one state,
under any two watchdogs, have the same output. -/
def Obligations.HaltedOutputIsUnique : Prop :=
  ∀ (s : State) (w w' : Watchdog) (output output' : List Byte), s.status = .running → s.hostMoves = [] →
    HaltsWith { s with watchdog := w } output → HaltsWith { s with watchdog := w' } output' → output = output'

/-- R212: every run ends, whatever its watchdog, at the latest in the iteration after those the watchdog lets begin (the
watchdogs of the model are log 8, log 9 and log 22). -/
def Obligations.EveryRunEnds : Prop :=
  ∀ s : State, s.status = .running →
    ∃ k t, k ≤ iterationsLeft s + 1 ∧ Host.Core.run Sys2Proof.core k s = .next t ∧ t.status.isTerminal = true
end

