-- ==== Sys2Proof/Laws/Decode.lean ====
section
/-! SUPPORT. The small lemmas of the encoding: selectors and immediates read back, and what the decoder answers on a
nonempty list. -/

namespace Sys2Proof

@[simp] theorem Sel8.ofBits_bits (x : Sel8) : Sel8.ofBits x.bits = x := by
  cases x with
  | zero => rfl
  | ind => rfl
  | reg r => cases r <;> rfl

@[simp] theorem Sel32.ofBits_bits (x : Sel32) : Sel32.ofBits x.bits = x := by
  cases x with
  | zero => rfl
  | seven => rfl
  | reg r => cases r <;> rfl

@[simp] theorem Sel8.bits_ofBits : ∀ n : BitVec 3, (Sel8.ofBits n).bits = n := by decide

@[simp] theorem Sel32.bits_ofBits : ∀ n : BitVec 3, (Sel32.ofBits n).bits = n := by decide

/-- The four bytes of a word, assembled again (R55). -/
@[simp] theorem leWord_wordByte (v : Word) :
    leWord (wordByte v 0) (wordByte v 1) (wordByte v 2) (wordByte v 3) = v := by
  apply BitVec.eq_of_toNat_eq
  have := v.isLt
  simp only [leWord, wordByte, BitVec.toNat_ofNat]
  omega

/-- A word of four bytes, as a number (R53, R55). -/
theorem leWord_toNat (b0 b1 b2 b3 : Byte) :
    (leWord b0 b1 b2 b3).toNat = b0.toNat + 2 ^ 8 * b1.toNat + 2 ^ 16 * b2.toNat + 2 ^ 24 * b3.toNat := by
  have := b0.isLt
  have := b1.isLt
  have := b2.isLt
  have := b3.isLt
  simp only [leWord, BitVec.toNat_ofNat]
  omega

/-- Taking a word of four bytes apart again. -/
theorem wordByte_leWord (b0 b1 b2 b3 : Byte) :
    wordByte (leWord b0 b1 b2 b3) 0 = b0 ∧ wordByte (leWord b0 b1 b2 b3) 1 = b1 ∧
      wordByte (leWord b0 b1 b2 b3) 2 = b2 ∧ wordByte (leWord b0 b1 b2 b3) 3 = b3 := by
  have := b0.isLt
  have := b1.isLt
  have := b2.isLt
  have := b3.isLt
  refine ⟨?_, ?_, ?_, ?_⟩ <;> apply BitVec.eq_of_toNat_eq <;>
    simp only [wordByte, leWord_toNat, BitVec.toNat_ofNat] <;> omega

/-- The length `decodeByte` answers is its mnemonic's. -/
theorem decodeByte_eq_some {b : Byte} {mn : Mnemonic} {len : Nat} :
    decodeByte b = some (mn, len) ↔ mnemonicOf b = some mn ∧ len = mn.length := by
  unfold decodeByte
  cases mnemonicOf b with
  | none => simp
  | some x => simp only [Option.map_some, Option.some.injEq, Prod.mk.injEq]; constructor <;> rintro ⟨rfl, rfl⟩ <;> exact ⟨rfl, rfl⟩

/-- Assembling keeps the mnemonic. -/
@[simp] theorem assemble_mnemonic (defect : Bool) (mn : Mnemonic) (b : Byte) (rest : List Byte) :
    (assemble defect mn b rest).mnemonic = mn := by
  cases mn <;> rfl

/-- Everything the decoder can answer on a nonempty list. -/
theorem decode_cons (b : Byte) (rest : List Byte) :
    (decodeByte b = none ∧ decode (b :: rest) = .error (.unsupportedOpcode b)) ∨
      (∃ mn len, decodeByte b = some (mn, len) ∧ rest.length + 1 < len ∧ decode (b :: rest) = .error (.truncated len)) ∨
      (∃ mn len, decodeByte b = some (mn, len) ∧ len ≤ rest.length + 1 ∧
        decode (b :: rest) = .ok (assemble Config.imm32Defect mn b rest, rest.drop (len - 1))) := by
  cases h : decodeByte b with
  | none => exact .inl ⟨rfl, by simp only [decode, decodeWith, h]⟩
  | some p =>
    obtain ⟨mn, len⟩ := p
    by_cases hl : rest.length + 1 < len
    · exact .inr (.inl ⟨mn, len, rfl, hl, by simp only [decode, decodeWith, h, hl, if_true]⟩)
    · exact .inr (.inr ⟨mn, len, rfl, by omega, by simp only [decode, decodeWith, h, hl, if_false]⟩)

end Sys2Proof
end

