-- ==== Sys2Proof/Laws/State.lean ====
section
/-! SUPPORT. One lemma per field and named update of the state, true by rfl, and the register files' read-after-write
lemmas, so that no later proof unfolds a record update. -/

namespace Sys2Proof.Machine

/-! ## Register files -/

/-- Reading an 8-bit register after a write. -/
@[simp] theorem Regs8.get_set (x : Regs8) (r q : Reg8) (v : Byte) :
    (x.set r v).get q = if q = r then v else x.get q := by
  cases r <;> cases q <;> rfl

/-- Reading a 32-bit register after a write. -/
@[simp] theorem Regs32.get_set (x : Regs32) (r q : Reg32) (v : Word) :
    (x.set r v).get q = if q = r then v else x.get q := by
  cases r <;> cases q <;> rfl

/-- Two 8-bit files with the same registers are the same file. -/
theorem Regs8.ext_get {x y : Regs8} (h : ∀ r, x.get r = y.get r) : x = y := by
  cases x; cases y
  simp only [Regs8.mk.injEq]
  exact ⟨h .a, h .b, h .c, h .d, h .e, h .f⟩

/-- Two 32-bit files with the same registers are the same file. -/
theorem Regs32.ext_get {x y : Regs32} (h : ∀ r, x.get r = y.get r) : x = y := by
  cases x; cases y
  simp only [Regs32.mk.injEq]
  exact ⟨h .la, h .lb, h .lc, h .ld, h .ptr, h .pc⟩

@[simp] theorem Regs8.get_a (x : Regs8) : x.get .a = x.a := rfl
@[simp] theorem Regs8.get_b (x : Regs8) : x.get .b = x.b := rfl
@[simp] theorem Regs8.get_c (x : Regs8) : x.get .c = x.c := rfl
@[simp] theorem Regs8.get_d (x : Regs8) : x.get .d = x.d := rfl
@[simp] theorem Regs8.get_e (x : Regs8) : x.get .e = x.e := rfl
@[simp] theorem Regs8.get_f (x : Regs8) : x.get .f = x.f := rfl
@[simp] theorem Regs32.get_la (x : Regs32) : x.get .la = x.la := rfl
@[simp] theorem Regs32.get_lb (x : Regs32) : x.get .lb = x.lb := rfl
@[simp] theorem Regs32.get_lc (x : Regs32) : x.get .lc = x.lc := rfl
@[simp] theorem Regs32.get_ld (x : Regs32) : x.get .ld = x.ld := rfl
@[simp] theorem Regs32.get_ptr (x : Regs32) : x.get .ptr = x.ptr := rfl
@[simp] theorem Regs32.get_pc (x : Regs32) : x.get .pc = x.pc := rfl
@[simp] theorem Regs32.set_pc_la (x : Regs32) (v : Word) : (x.set .pc v).la = x.la := rfl
@[simp] theorem Regs32.set_pc_lb (x : Regs32) (v : Word) : (x.set .pc v).lb = x.lb := rfl
@[simp] theorem Regs32.set_pc_lc (x : Regs32) (v : Word) : (x.set .pc v).lc = x.lc := rfl
@[simp] theorem Regs32.set_pc_ld (x : Regs32) (v : Word) : (x.set .pc v).ld = x.ld := rfl
@[simp] theorem Regs32.set_pc_ptr (x : Regs32) (v : Word) : (x.set .pc v).ptr = x.ptr := rfl
@[simp] theorem Regs32.set_pc_pc (x : Regs32) (v : Word) : (x.set .pc v).pc = v := rfl
@[simp] theorem Regs32.set_pc_set_pc (x : Regs32) (v w : Word) : (x.set .pc v).set .pc w = x.set .pc w := rfl

/-! ## One lemma per field and update -/

@[simp] theorem State.set8_x8 (s : State) (r : Reg8) (v : Byte) : (s.set8 r v).x8 = s.x8.set r v := rfl
@[simp] theorem State.set8_x32 (s : State) (r : Reg8) (v : Byte) : (s.set8 r v).x32 = s.x32 := rfl
@[simp] theorem State.set8_mem (s : State) (r : Reg8) (v : Byte) : (s.set8 r v).mem = s.mem := rfl
@[simp] theorem State.set8_outseq (s : State) (r : Reg8) (v : Byte) : (s.set8 r v).outseq = s.outseq := rfl
@[simp] theorem State.set8_status (s : State) (r : Reg8) (v : Byte) : (s.set8 r v).status = s.status := rfl
@[simp] theorem State.set8_icount (s : State) (r : Reg8) (v : Byte) : (s.set8 r v).icount = s.icount := rfl
@[simp] theorem State.set8_watchdog (s : State) (r : Reg8) (v : Byte) : (s.set8 r v).watchdog = s.watchdog := rfl
@[simp] theorem State.set8_resets (s : State) (r : Reg8) (v : Byte) : (s.set8 r v).resets = s.resets := rfl
@[simp] theorem State.set8_hostMoves (s : State) (r : Reg8) (v : Byte) : (s.set8 r v).hostMoves = s.hostMoves := rfl

@[simp] theorem State.set32_x8 (s : State) (r : Reg32) (v : Word) : (s.set32 r v).x8 = s.x8 := rfl
@[simp] theorem State.set32_x32 (s : State) (r : Reg32) (v : Word) : (s.set32 r v).x32 = s.x32.set r v := rfl
@[simp] theorem State.set32_mem (s : State) (r : Reg32) (v : Word) : (s.set32 r v).mem = s.mem := rfl
@[simp] theorem State.set32_outseq (s : State) (r : Reg32) (v : Word) : (s.set32 r v).outseq = s.outseq := rfl
@[simp] theorem State.set32_status (s : State) (r : Reg32) (v : Word) : (s.set32 r v).status = s.status := rfl
@[simp] theorem State.set32_icount (s : State) (r : Reg32) (v : Word) : (s.set32 r v).icount = s.icount := rfl
@[simp] theorem State.set32_watchdog (s : State) (r : Reg32) (v : Word) : (s.set32 r v).watchdog = s.watchdog := rfl
@[simp] theorem State.set32_resets (s : State) (r : Reg32) (v : Word) : (s.set32 r v).resets = s.resets := rfl
@[simp] theorem State.set32_hostMoves (s : State) (r : Reg32) (v : Word) : (s.set32 r v).hostMoves = s.hostMoves := rfl

@[simp] theorem State.output_x8 (s : State) (v : Byte) : (s.output v).x8 = s.x8 := rfl
@[simp] theorem State.output_x32 (s : State) (v : Byte) : (s.output v).x32 = s.x32 := rfl
@[simp] theorem State.output_mem (s : State) (v : Byte) : (s.output v).mem = s.mem := rfl
@[simp] theorem State.output_outseq (s : State) (v : Byte) : (s.output v).outseq = s.outseq ++ [v] := rfl
@[simp] theorem State.output_status (s : State) (v : Byte) : (s.output v).status = s.status := rfl
@[simp] theorem State.output_icount (s : State) (v : Byte) : (s.output v).icount = s.icount := rfl
@[simp] theorem State.output_watchdog (s : State) (v : Byte) : (s.output v).watchdog = s.watchdog := rfl
@[simp] theorem State.output_resets (s : State) (v : Byte) : (s.output v).resets = s.resets := rfl
@[simp] theorem State.output_hostMoves (s : State) (v : Byte) : (s.output v).hostMoves = s.hostMoves := rfl

@[simp] theorem State.advance_x8 (s : State) (len : Nat) : (s.advance len).x8 = s.x8 := rfl
@[simp] theorem State.advance_x32 (s : State) (len : Nat) : (s.advance len).x32 = s.x32.set .pc (s.x32.pc + BitVec.ofNat 32 len) := rfl
@[simp] theorem State.advance_mem (s : State) (len : Nat) : (s.advance len).mem = s.mem := rfl
@[simp] theorem State.advance_outseq (s : State) (len : Nat) : (s.advance len).outseq = s.outseq := rfl
@[simp] theorem State.advance_status (s : State) (len : Nat) : (s.advance len).status = s.status := rfl
@[simp] theorem State.advance_icount (s : State) (len : Nat) : (s.advance len).icount = s.icount := rfl
@[simp] theorem State.advance_watchdog (s : State) (len : Nat) : (s.advance len).watchdog = s.watchdog := rfl
@[simp] theorem State.advance_resets (s : State) (len : Nat) : (s.advance len).resets = s.resets := rfl
@[simp] theorem State.advance_hostMoves (s : State) (len : Nat) : (s.advance len).hostMoves = s.hostMoves := rfl

@[simp] theorem State.tick_x8 (s : State) : s.tick.x8 = s.x8 := rfl
@[simp] theorem State.tick_x32 (s : State) : s.tick.x32 = s.x32 := rfl
@[simp] theorem State.tick_mem (s : State) : s.tick.mem = s.mem := rfl
@[simp] theorem State.tick_outseq (s : State) : s.tick.outseq = s.outseq := rfl
@[simp] theorem State.tick_status (s : State) : s.tick.status = s.status := rfl
@[simp] theorem State.tick_icount (s : State) : s.tick.icount = s.icount + 1 := rfl
@[simp] theorem State.tick_watchdog (s : State) : s.tick.watchdog = s.watchdog := rfl
@[simp] theorem State.tick_resets (s : State) : s.tick.resets = s.resets := rfl
@[simp] theorem State.tick_hostMoves (s : State) : s.tick.hostMoves = s.hostMoves := rfl

@[simp] theorem State.setStatus_x8 (s : State) (x : Status) : (s.setStatus x).x8 = s.x8 := rfl
@[simp] theorem State.setStatus_x32 (s : State) (x : Status) : (s.setStatus x).x32 = s.x32 := rfl
@[simp] theorem State.setStatus_mem (s : State) (x : Status) : (s.setStatus x).mem = s.mem := rfl
@[simp] theorem State.setStatus_outseq (s : State) (x : Status) : (s.setStatus x).outseq = s.outseq := rfl
@[simp] theorem State.setStatus_status (s : State) (x : Status) : (s.setStatus x).status = x := rfl
@[simp] theorem State.setStatus_icount (s : State) (x : Status) : (s.setStatus x).icount = s.icount := rfl
@[simp] theorem State.setStatus_watchdog (s : State) (x : Status) : (s.setStatus x).watchdog = s.watchdog := rfl
@[simp] theorem State.setStatus_resets (s : State) (x : Status) : (s.setStatus x).resets = s.resets := rfl
@[simp] theorem State.setStatus_hostMoves (s : State) (x : Status) : (s.setStatus x).hostMoves = s.hostMoves := rfl

@[simp] theorem State.raise_x8 (s : State) (info : FaultInfo) : (s.raise info).x8 = s.x8 := rfl
@[simp] theorem State.raise_x32 (s : State) (info : FaultInfo) : (s.raise info).x32 = s.x32 := rfl
@[simp] theorem State.raise_mem (s : State) (info : FaultInfo) : (s.raise info).mem = s.mem := rfl
@[simp] theorem State.raise_outseq (s : State) (info : FaultInfo) : (s.raise info).outseq = s.outseq := rfl
@[simp] theorem State.raise_status (s : State) (info : FaultInfo) : (s.raise info).status = .faulted info.kind s.x32.pc info := rfl
@[simp] theorem State.raise_icount (s : State) (info : FaultInfo) : (s.raise info).icount = s.icount := rfl
@[simp] theorem State.raise_watchdog (s : State) (info : FaultInfo) : (s.raise info).watchdog = s.watchdog := rfl
@[simp] theorem State.raise_resets (s : State) (info : FaultInfo) : (s.raise info).resets = s.resets := rfl
@[simp] theorem State.raise_hostMoves (s : State) (info : FaultInfo) : (s.raise info).hostMoves = s.hostMoves := rfl

/-! ## The watchdog sample and the reset of the host -/

@[simp] theorem takeSample_x8 (s : State) : (takeSample s).x8 = s.x8 := by
  unfold takeSample; split <;> rfl
@[simp] theorem takeSample_x32 (s : State) : (takeSample s).x32 = s.x32 := by
  unfold takeSample; split <;> rfl
@[simp] theorem takeSample_mem (s : State) : (takeSample s).mem = s.mem := by
  unfold takeSample; split <;> rfl
@[simp] theorem takeSample_outseq (s : State) : (takeSample s).outseq = s.outseq := by
  unfold takeSample; split <;> rfl
@[simp] theorem takeSample_status (s : State) : (takeSample s).status = s.status := by
  unfold takeSample; split <;> rfl
@[simp] theorem takeSample_icount (s : State) : (takeSample s).icount = s.icount := by
  unfold takeSample; split <;> rfl
@[simp] theorem takeSample_hostMoves (s : State) : (takeSample s).hostMoves = s.hostMoves := by
  unfold takeSample; split <;> rfl
@[simp] theorem takeSample_resets (s : State) : (takeSample s).resets = s.resets := by
  unfold takeSample; split <;> rfl

@[simp] theorem hostReset_x8 (s : State) : (hostReset s).x8 = State.reset.x8 := rfl
@[simp] theorem hostReset_x32 (s : State) : (hostReset s).x32 = State.reset.x32 := rfl
@[simp] theorem hostReset_mem (s : State) : (hostReset s).mem = s.mem := rfl
@[simp] theorem hostReset_outseq (s : State) : (hostReset s).outseq = State.reset.outseq := rfl
@[simp] theorem hostReset_status (s : State) : (hostReset s).status = State.reset.status := rfl
@[simp] theorem hostReset_icount (s : State) : (hostReset s).icount = State.reset.icount := rfl
@[simp] theorem hostReset_watchdog (s : State) : (hostReset s).watchdog = State.reset.watchdog := rfl
@[simp] theorem hostReset_resets (s : State) : (hostReset s).resets = s.resets + 1 := rfl
@[simp] theorem hostReset_hostMoves (s : State) : (hostReset s).hostMoves = s.hostMoves := rfl

/-! ## The effective address depends on `ptr` and `c` only -/

@[simp] theorem effectiveAddress_advance (s : State) (len : Nat) :
    effectiveAddress (s.advance len) = effectiveAddress s := rfl

@[simp] theorem effectiveAddress_takeSample (s : State) : effectiveAddress (takeSample s) = effectiveAddress s := by
  simp [effectiveAddress]

end Sys2Proof.Machine
end

