-- ==== Sys2Proof/Laws/Memory.lean ====
section
/-! SUPPORT. The memory: read after write, and that every memory operation keeps the canonical form. -/

namespace Sys2Proof.Machine

/-! ## Lists of cells -/

/-- Lowering the lower bound keeps the form. -/
theorem cellsWf_mono {lo lo' limit : Nat} (h : lo' ≤ lo) {cs : List Host.Cell} (hw : cellsWf lo limit cs = true) :
    cellsWf lo' limit cs = true := by
  cases cs with
  | nil => rfl
  | cons c rest =>
    obtain ⟨x, w⟩ := c
    simp only [cellsWf, Bool.and_eq_true, decide_eq_true_eq] at hw ⊢
    exact ⟨⟨⟨by omega, hw.1.1.2⟩, hw.1.2⟩, hw.2⟩

/-- Below the lower bound nothing is listed. -/
theorem cellsRead_below {limit a : Nat} : ∀ {lo : Nat} {cs : List Host.Cell},
    cellsWf lo limit cs = true → a < lo → cellsRead cs a = Memory.unlisted
  | _, [], _, _ => rfl
  | lo, (x, w) :: rest, hw, ha => by
    simp only [cellsWf, Bool.and_eq_true, decide_eq_true_eq] at hw
    have hne : x ≠ a := by omega
    simpa [cellsRead, hne] using cellsRead_below hw.2 (by omega)

/-- What one cell, or its absence, before a list gives: the cell's byte there, the list's elsewhere. -/
theorem cellsRead_put {a b : Nat} {v : Byte} {cs : List Host.Cell} (h : cellsRead cs a = Memory.unlisted) :
    cellsRead (if v = Memory.unlisted then cs else (a, v) :: cs) b = if b = a then v else cellsRead cs b := by
  by_cases hb : b = a
  · subst hb
    by_cases hv : v = Memory.unlisted
    · simp only [hv, if_true, h]
    · simp only [hv, if_false, if_true, cellsRead]
  · have hab : ¬ a = b := fun e => hb e.symm
    by_cases hv : v = Memory.unlisted
    · simp only [hv, if_true, hb, if_false]
    · simp only [hv, if_false, hb, hab, cellsRead]

/-- Read after write. -/
theorem cellsRead_cellsWrite {limit a b : Nat} {v : Byte} : ∀ {lo : Nat} {cs : List Host.Cell},
    cellsWf lo limit cs = true → cellsRead (cellsWrite cs a v) b = if b = a then v else cellsRead cs b
  | _, [], _ => cellsRead_put rfl
  | lo, (x, w) :: rest, hw => by
    have hw' := hw
    simp only [cellsWf, Bool.and_eq_true, decide_eq_true_eq] at hw
    unfold cellsWrite
    split
    · next hax =>
      refine cellsRead_put ?_
      have hxa : ¬ x = a := by omega
      simp only [cellsRead, hxa, if_false]
      exact cellsRead_below hw.2 (by omega)
    · split
      · next hax =>
        subst hax
        rw [cellsRead_put (cellsRead_below hw.2 (by omega))]
        by_cases hb : b = a
        · simp only [hb, if_true]
        · have hab : ¬ a = b := fun e => hb e.symm
          simp only [hb, hab, if_false, cellsRead]
      · next hax =>
        have ih := cellsRead_cellsWrite (a := a) (b := b) (v := v) hw.2
        by_cases hb : b = a
        · subst hb
          have hxb : ¬ x = b := fun e => hax e.symm
          simpa only [cellsRead, hxb, if_false, if_true] using ih
        · simp only [cellsRead, ih, hb, if_false]

/-- A write keeps the form. -/
theorem cellsWf_cellsWrite {limit a : Nat} {v : Byte} (ha : a < limit) : ∀ {lo : Nat} {cs : List Host.Cell},
    lo ≤ a → cellsWf lo limit cs = true → cellsWf lo limit (cellsWrite cs a v) = true
  | lo, [], hlo, _ => by
    by_cases hv : v = Memory.unlisted <;> simp [cellsWrite, cellsWf, hv, hlo, ha]
  | lo, (x, w) :: rest, hlo, hw => by
    have hw' := hw
    simp only [cellsWf, Bool.and_eq_true, decide_eq_true_eq] at hw
    unfold cellsWrite
    split
    · next hax =>
      by_cases hv : v = Memory.unlisted
      · simpa [hv] using hw'
      · simp only [hv, if_false, cellsWf, Bool.and_eq_true, decide_eq_true_eq]
        exact ⟨⟨⟨hlo, ha⟩, hv⟩, ⟨⟨by omega, hw.1.1.2⟩, hw.1.2⟩, hw.2⟩
    · split
      · next hax =>
        subst hax
        by_cases hv : v = Memory.unlisted
        · simpa [hv] using cellsWf_mono (by omega) hw.2
        · simp only [hv, if_false, cellsWf, Bool.and_eq_true, decide_eq_true_eq]
          exact ⟨⟨⟨hlo, ha⟩, hv⟩, hw.2⟩
      · simp only [cellsWf, Bool.and_eq_true, decide_eq_true_eq]
        exact ⟨hw.1, cellsWf_cellsWrite ha (by omega) hw.2⟩

/-- Writing back what is there changes nothing: the form is canonical. -/
theorem cellsWrite_self {limit a : Nat} : ∀ {lo : Nat} {cs : List Host.Cell},
    cellsWf lo limit cs = true → cellsWrite cs a (cellsRead cs a) = cs
  | _, [], _ => rfl
  | lo, (x, w) :: rest, hw => by
    simp only [cellsWf, Bool.and_eq_true, decide_eq_true_eq] at hw
    unfold cellsWrite
    split
    · next hax =>
      have hxa : ¬ x = a := by omega
      simp only [cellsRead, hxa, if_false, cellsRead_below hw.2 (show a < x + 1 by omega), if_true]
    · split
      · next hax =>
        subst hax
        simp only [cellsRead, if_true, hw.1.2, if_false]
      · next hax =>
        have hxa : ¬ x = a := fun e => hax e.symm
        simp only [cellsRead, hxa, if_false, cellsWrite_self hw.2]

/-- An image's cells are in form. -/
theorem cellsWf_imageCells : ∀ (n : Nat) (image : List Byte), cellsWf n (n + image.length) (imageCells n image) = true
  | _, [] => rfl
  | n, b :: rest => by
    have ih := cellsWf_imageCells (n + 1) rest
    rw [show n + 1 + rest.length = n + (b :: rest).length by simp; omega] at ih
    unfold imageCells
    split
    · exact cellsWf_mono (by omega) ih
    · next hb =>
      simp only [cellsWf, Bool.and_eq_true, decide_eq_true_eq]
      exact ⟨⟨⟨by omega, by simp⟩, hb⟩, ih⟩

/-- An image's cells read as the image. -/
theorem cellsRead_imageCells : ∀ (n k : Nat) (image : List Byte) (b : Byte), image[k]? = some b →
    cellsRead (imageCells n image) (n + k) = b
  | _, _, [], _, h => by simp at h
  | n, 0, x :: rest, b, h => by
    have hx : x = b := by simpa using h
    subst hx
    unfold imageCells
    split
    · next hx => rw [cellsRead_below (cellsWf_imageCells (n + 1) rest) (by omega), hx]
    · simp [cellsRead]
  | n, k + 1, x :: rest, b, h => by
    have ih := cellsRead_imageCells (n + 1) k rest b (by simpa using h)
    rw [show n + 1 + k = n + (k + 1) by omega] at ih
    unfold imageCells
    split
    · exact ih
    · simpa [cellsRead] using ih

/-! ## The memory -/

/-- The canonical form, taken apart. -/
theorem Memory.wf_iff (m : Memory) : m.wf = true ↔ m.size < 2 ^ 32 ∧ cellsWf 0 m.size m.cells = true := by
  rw [Memory.wf, Bool.and_eq_true, decide_eq_true_iff]; rfl

@[simp] theorem Memory.write_size (m : Memory) (a : Nat) (v : Byte) : (m.write a v).size = m.size := by
  unfold Memory.write; split <;> rfl

/-- A write keeps the canonical form. -/
theorem Memory.write_wf {m : Memory} (h : m.wf = true) (a : Nat) (v : Byte) : (m.write a v).wf = true := by
  rw [Memory.wf_iff] at h
  unfold Memory.write
  split
  · next ha => exact (Memory.wf_iff _).2 ⟨h.1, cellsWf_cellsWrite ha (Nat.zero_le _) h.2⟩
  · exact (Memory.wf_iff _).2 h

/-- A read after a write: the written byte there, everything else as before. -/
theorem Memory.read?_write {m : Memory} (h : m.wf = true) (a b : Nat) (v : Byte) :
    (m.write a v).read? b = if b = a ∧ a < m.size then some v else m.read? b := by
  rw [Memory.wf_iff] at h
  unfold Memory.write
  by_cases ha : a < m.size
  · by_cases hb : b = a
    · subst hb; simp [Memory.read?, ha, cellsRead_cellsWrite h.2]
    · simp [Memory.read?, ha, hb, cellsRead_cellsWrite h.2]
  · simp [ha]

/-- Writing a byte back changes nothing. -/
theorem Memory.write_self {m : Memory} (h : m.wf = true) {a : Nat} {v : Byte} (hr : m.read? a = some v) :
    m.write a v = m := by
  rw [Memory.wf_iff] at h
  unfold Memory.read? at hr
  split at hr
  · next ha =>
    cases hr
    simp only [Memory.write, ha, if_true, cellsWrite_self h.2]
  · cases hr

/-- A read answers exactly below `MEMSIZE`. -/
theorem Memory.read?_isSome (m : Memory) (a : Nat) : (m.read? a).isSome = decide (a < m.size) := by
  unfold Memory.read?; split <;> simp [*]

theorem Memory.read?_eq_none {m : Memory} {a : Nat} : m.read? a = none ↔ m.size ≤ a := by
  unfold Memory.read?; split <;> simp <;> omega

theorem Memory.lt_size_of_read? {m : Memory} {a : Nat} {b : Byte} (h : m.read? a = some b) : a < m.size := by
  by_contra hn
  rw [Memory.read?_eq_none.2 (by omega)] at h
  cases h

/-- A loaded image is in canonical form. -/
theorem Memory.ofImage_wf {image : List Byte} (h : image.length < 2 ^ 32) : (Memory.ofImage image).wf = true := by
  rw [Memory.wf_iff]
  exact ⟨h, by simpa [Memory.ofImage] using cellsWf_imageCells 0 image⟩

/-- A loaded image reads as the image. -/
theorem Memory.read?_ofImage (image : List Byte) (k : Nat) : (Memory.ofImage image).read? k = image[k]? := by
  unfold Memory.read? Memory.ofImage
  split
  · next hk =>
    have hk' : k < image.length := hk
    rw [List.getElem?_eq_getElem hk']
    have h := cellsRead_imageCells 0 k image _ (List.getElem?_eq_getElem hk')
    rw [Nat.zero_add] at h
    rw [h]
  · next hk => exact (List.getElem?_eq_none (by simpa using hk)).symm

theorem Memory.writeList_size : ∀ (bs : List Byte) (m : Memory) (a : Nat), (m.writeList a bs).size = m.size
  | [], _, _ => rfl
  | b :: rest, m, a => by simp [Memory.writeList, Memory.writeList_size rest]

/-- Writing several bytes keeps the canonical form. -/
theorem Memory.writeList_wf : ∀ (bs : List Byte) {m : Memory} (a : Nat), m.wf = true → (m.writeList a bs).wf = true
  | [], _, _, h => h
  | _ :: rest, _, a, h => Memory.writeList_wf rest (a + 1) (Memory.write_wf h a _)

/-- Widening a memory (for the host's word) keeps the canonical form where the new size is legal. -/
theorem cellsWf_limit {limit limit' : Nat} (h : limit ≤ limit') : ∀ {lo : Nat} {cs : List Host.Cell},
    cellsWf lo limit cs = true → cellsWf lo limit' cs = true
  | _, [], _ => rfl
  | _, (x, w) :: rest, hw => by
    simp only [cellsWf, Bool.and_eq_true, decide_eq_true_eq] at hw ⊢
    exact ⟨⟨⟨hw.1.1.1, by omega⟩, hw.1.2⟩, cellsWf_limit h hw.2⟩

/-- The host's word keeps the canonical form where there is room for it below 2^32. -/
theorem State.placeWord_wf {s : State} (h : s.mem.wf = true) (hroom : s.x32.pc.toNat + 5 < 2 ^ 32) (nbits w : Nat) :
    (s.placeWord nbits w).mem.wf = true := by
  rw [Memory.wf_iff] at h
  refine Memory.writeList_wf _ _ ((Memory.wf_iff _).2 ⟨?_, cellsWf_limit (by simp) h.2⟩)
  simp only; omega

/-! ## The memory operations of the machine -/

/-- `memWrite` keeps the canonical form. -/
theorem memWrite_wf {a : Nat} {v : Byte} {s t : State} (h : memWrite a v s = .ok t) (hs : s.mem.wf = true) :
    t.mem.wf = true := by
  unfold memWrite at h
  split at h
  · cases h; exact Memory.write_wf hs a v
  · cases h

/-- Everything `memRead` can do. -/
theorem memRead_cases (a : Nat) (s : State) :
    (∃ v, s.mem.read? a = some v ∧ memRead a s = .ok v) ∨ (s.mem.size ≤ a ∧ memRead a s = .error (.dataAddress a)) := by
  unfold memRead
  cases h : s.mem.read? a with
  | some v => exact .inl ⟨v, rfl, rfl⟩
  | none => exact .inr ⟨Memory.read?_eq_none.1 h, rfl⟩

/-- Everything `memWrite` can do. -/
theorem memWrite_cases (a : Nat) (v : Byte) (s : State) :
    (a < s.mem.size ∧ memWrite a v s = .ok { s with mem := s.mem.write a v }) ∨
      (s.mem.size ≤ a ∧ memWrite a v s = .error (.dataAddress a)) := by
  unfold memWrite
  split
  · exact .inl ⟨‹_›, rfl⟩
  · exact .inr ⟨by omega, rfl⟩

/-- The bytes the fetch sees: the byte at `a` comes first, and the list goes on with the bytes after it. -/
theorem bytesFrom_succ (m : Memory) (n a : Nat) :
    (m.size ≤ a ∧ bytesFrom m (n + 1) a = []) ∨
      (∃ b, m.read? a = some b ∧ bytesFrom m (n + 1) a = b :: bytesFrom m n (a + 1)) := by
  cases h : m.read? a with
  | none => exact .inl ⟨Memory.read?_eq_none.1 h, by simp only [bytesFrom, h]⟩
  | some b => exact .inr ⟨b, rfl, by simp only [bytesFrom, h]⟩

/-- The `k`-th byte of the window. -/
theorem bytesFrom_getElem? (m : Memory) : ∀ (n a k : Nat), k < n → (bytesFrom m n a)[k]? = m.read? (a + k)
  | 0, _, _, hk => by omega
  | n + 1, a, k, hk => by
    rcases bytesFrom_succ m n a with ⟨hs, he⟩ | ⟨b, hb, he⟩
    · rw [he, Memory.read?_eq_none.2 (by omega)]; simp
    · rw [he]
      cases k with
      | zero => simpa using hb.symm
      | succ k =>
        rw [List.getElem?_cons_succ, bytesFrom_getElem? m n (a + 1) k (by omega)]
        congr 1; omega

/-- How many bytes the window has. -/
theorem bytesFrom_length (m : Memory) : ∀ (n a : Nat), (bytesFrom m n a).length = min n (m.size - a)
  | 0, _ => by simp [bytesFrom]
  | n + 1, a => by
    rcases bytesFrom_succ m n a with ⟨hs, he⟩ | ⟨b, hb, he⟩
    · rw [he]; simp; omega
    · have := Memory.lt_size_of_read? hb
      rw [he, List.length_cons, bytesFrom_length m n (a + 1)]; omega

end Sys2Proof.Machine
end

