-- ==== Sys2Proof/Laws/Ops.lean ====
section
/-! SUPPORT. Everything the shared operations and `exec` can do, said once: later proofs cite these lemmas instead of
unfolding the operations. -/

namespace Sys2Proof.Machine

/-! ## `attempt` -/

/-- An effect that succeeds completes the instruction. -/
theorem attempt_ok {len : Nat} {effect : State → Except FaultInfo State} {s u : State}
    (h : effect (s.advance len) = .ok u) : attempt len effect s = .next u.tick := by
  simp only [attempt, h]

/-- An effect that raises takes the fatal condition, from the state the iteration began in. -/
theorem attempt_error {len : Nat} {effect : State → Except FaultInfo State} {s : State} {info : FaultInfo}
    (h : effect (s.advance len) = .error info) : attempt len effect s = .next (s.raise info) := by
  simp only [attempt, h]

/-- Everything `attempt` can do. -/
theorem attempt_cases {len : Nat} {effect : State → Except FaultInfo State} {s t : State}
    (h : attempt len effect s = .next t) :
    (∃ u, effect (s.advance len) = .ok u ∧ t = u.tick) ∨
      (∃ info, effect (s.advance len) = .error info ∧ t = s.raise info) := by
  cases he : effect (s.advance len) with
  | ok u => exact .inl ⟨u, rfl, by simpa [attempt_ok he] using h.symm⟩
  | error info => exact .inr ⟨info, rfl, by simpa [attempt_error he] using h.symm⟩

/-! ## Operands -/

/-- Everything `checkSelectors` can do. -/
theorem checkSelectors_ok (b : Bool) (u : Unit) : checkSelectors b = .ok u ↔ b = true := by
  cases b <;> simp [checkSelectors]

theorem checkSelectors_error (b : Bool) (info : FaultInfo) :
    checkSelectors b = .error info ↔ b = false ∧ info = .selector := by
  cases b <;> simp [checkSelectors, eq_comm]

/-- Everything `read8` can do when it raises. -/
theorem read8_error {sel : Sel8} {s : State} {info : FaultInfo} (h : read8 sel s = .error info) :
    (sel.valid = false ∧ info = .selector) ∨
      (s.mem.size ≤ effectiveAddress s ∧ info = .dataAddress (effectiveAddress s)) := by
  cases sel with
  | zero => exact .inl ⟨rfl, by simpa [read8] using h.symm⟩
  | reg r => simp [read8] at h
  | ind =>
    rcases memRead_cases (effectiveAddress s) s with ⟨v, -, he⟩ | ⟨hs, he⟩
    · simp [read8, he] at h
    · exact .inr ⟨hs, by simpa [read8, he] using h.symm⟩

/-- Everything `write8` can do when it succeeds. -/
theorem write8_ok {sel : Sel8} {v : Byte} {s t : State} (h : write8 sel v s = .ok t) :
    (∃ r, sel = .reg r ∧ t = s.set8 r v) ∨
      (sel = .ind ∧ effectiveAddress s < s.mem.size ∧ t = { s with mem := s.mem.write (effectiveAddress s) v }) := by
  cases sel with
  | zero => simp [write8] at h
  | reg r => exact .inl ⟨r, rfl, by simpa [write8] using h.symm⟩
  | ind =>
    rcases memWrite_cases (effectiveAddress s) v s with ⟨hs, he⟩ | ⟨hs, he⟩
    · exact .inr ⟨rfl, hs, by simpa [write8, he] using h.symm⟩
    · simp [write8, he] at h

/-- Everything `write8` can do when it raises. -/
theorem write8_error {sel : Sel8} {v : Byte} {s : State} {info : FaultInfo} (h : write8 sel v s = .error info) :
    (sel.valid = false ∧ info = .selector) ∨
      (s.mem.size ≤ effectiveAddress s ∧ info = .dataAddress (effectiveAddress s)) := by
  cases sel with
  | zero => exact .inl ⟨rfl, by simpa [write8] using h.symm⟩
  | reg r => simp [write8] at h
  | ind =>
    rcases memWrite_cases (effectiveAddress s) v s with ⟨hs, he⟩ | ⟨hs, he⟩
    · simp [write8, he] at h
    · exact .inr ⟨hs, by simpa [write8, he] using h.symm⟩

/-- Everything `read32` can do. -/
theorem read32_valid (sel : Sel32) (s : State) :
    (∃ r, sel = .reg r ∧ read32 sel s = .ok (s.x32.get r)) ∨
      (sel.valid = false ∧ read32 sel s = .error .selector) := by
  cases sel with
  | zero => exact .inr ⟨rfl, rfl⟩
  | reg r => exact .inl ⟨r, rfl, rfl⟩
  | seven => exact .inr ⟨rfl, rfl⟩

/-- Everything `write32` can do. -/
theorem write32_valid (sel : Sel32) (v : Word) (s : State) :
    (∃ r, sel = .reg r ∧ write32 sel v s = .ok (s.set32 r v)) ∨
      (sel.valid = false ∧ write32 sel v s = .error .selector) := by
  cases sel with
  | zero => exact .inr ⟨rfl, rfl⟩
  | reg r => exact .inl ⟨r, rfl, rfl⟩
  | seven => exact .inr ⟨rfl, rfl⟩

/-! ## Each meaning as one `attempt` -/

theorem exec_mvi (dst : Sel8) (imm8 : Byte) (s : State) :
    exec (.mvi dst imm8) s = attempt 2 (fun t => (checkSelectors dst.valid).bind fun _ => write8 dst imm8 t) s := rfl

theorem exec_mv (dst src : Sel8) (s : State) :
    exec (.mv dst src) s = attempt 1 (fun t => (checkSelectors (dst.valid && src.valid)).bind fun _ =>
      (read8 src t).bind fun v => write8 dst v t) s := rfl

theorem exec_mvi32 (dst : Sel32) (imm32 : Word) (s : State) :
    exec (.mvi32 dst imm32) s = attempt 5 (fun t => (checkSelectors dst.valid).bind fun _ => write32 dst imm32 t) s := rfl

theorem exec_mv32 (dst src : Sel32) (s : State) :
    exec (.mv32 dst src) s = attempt 1 (fun t => (checkSelectors (dst.valid && src.valid)).bind fun _ =>
      (read32 src t).bind fun v => write32 dst v t) s := rfl

theorem exec_halt (s : State) : exec .halt s = attempt 1 (fun t => .ok (t.setStatus .halted)) s := rfl

theorem exec_out (s : State) : exec .out s = attempt 1 (fun t => .ok (t.output t.x8.a)) s := rfl

theorem exec_jez (imm32 : Word) (s : State) :
    exec (.jez imm32) s = attempt 5 (fun t => .ok (jumpIf (conditionZero t.x8.f) imm32 t)) s := rfl

theorem exec_jnz (imm32 : Word) (s : State) :
    exec (.jnz imm32) s = attempt 5 (fun t => .ok (jumpIf (conditionNonzero t.x8.f) imm32 t)) s := rfl

theorem exec_cmp (s : State) : exec .cmp s = attempt 1 (fun t => .ok (t.set8 .f (compareByte t.x8.a t.x8.b))) s := rfl

theorem exec_add (s : State) : exec .add s = attempt 1 (fun t => .ok (t.set8 .a (t.x8.a + t.x8.b))) s := rfl

theorem exec_sub (s : State) : exec .sub s = attempt 1 (fun t => .ok (t.set8 .a (t.x8.a - t.x8.b))) s := rfl

theorem exec_xor (s : State) : exec .xor s = attempt 1 (fun t => .ok (t.set8 .a (t.x8.a ^^^ t.x8.b))) s := rfl

theorem exec_aptr (imm8 : Byte) (s : State) : exec (.aptr imm8) s = attempt 2 (addToPtr imm8) s := rfl

/-- Every meaning is one `attempt` over the instruction's length. -/
theorem exec_eq_attempt (i : Instr) (s : State) : ∃ effect, exec i s = attempt i.length effect s := by
  cases i with
  | mvi dst imm8 => exact ⟨_, exec_mvi dst imm8 s⟩
  | mv dst src => exact ⟨_, exec_mv dst src s⟩
  | mvi32 dst imm32 => exact ⟨_, exec_mvi32 dst imm32 s⟩
  | mv32 dst src => exact ⟨_, exec_mv32 dst src s⟩
  | halt => exact ⟨_, exec_halt s⟩
  | out => exact ⟨_, exec_out s⟩
  | jez imm32 => exact ⟨_, exec_jez imm32 s⟩
  | jnz imm32 => exact ⟨_, exec_jnz imm32 s⟩
  | cmp => exact ⟨_, exec_cmp s⟩
  | add => exact ⟨_, exec_add s⟩
  | sub => exact ⟨_, exec_sub s⟩
  | xor => exact ⟨_, exec_xor s⟩
  | aptr imm8 => exact ⟨_, exec_aptr imm8 s⟩

/-! ## `exec` -/

/-- What an instruction may have done when `exec` answers `t`: raise, from the state the iteration began in, or advance,
make at most one write, and count. -/
def ExecCase (i : Instr) (s t : State) : Prop :=
    (∃ info, t = s.raise info ∧
        (info = .selector ∧ i.selectorsValid = false ∨
          info = .dataAddress (effectiveAddress s) ∧ s.mem.size ≤ effectiveAddress s ∨
          info = .ptrOverflow ∧ ∃ imm8, i = .aptr imm8 ∧ 2 ^ 32 ≤ s.x32.ptr.toNat + imm8.toNat)) ∨
    (∃ r v, dest8 i = some r ∧ t = ((s.advance i.length).set8 r v).tick) ∨
    (∃ r v, dest32 i = some r ∧ t = ((s.advance i.length).set32 r v).tick) ∨
    (∃ v, storeAddress i s = some (effectiveAddress s) ∧ effectiveAddress s < s.mem.size ∧
        t = ({ s.advance i.length with mem := s.mem.write (effectiveAddress s) v } : State).tick) ∨
    ((∃ target, i = .jez target ∨ i = .jnz target) ∧ t = (s.advance i.length).tick) ∨
    (i = .halt ∧ t = ((s.advance i.length).setStatus .halted).tick) ∨
    (i = .out ∧ t = ((s.advance i.length).output s.x8.a).tick)

theorem execMvi_cases {dst : Sel8} {imm8 : Byte} {s t : State} (h : execMvi dst imm8 s = .next t) : ExecCase (.mvi dst imm8) s t := by
  unfold execMvi at h
  rcases attempt_cases h with ⟨u, hu, rfl⟩ | ⟨info, hi, rfl⟩
  · cases hv : dst.valid with
    | false => simp [checkSelectors, hv, bind, Except.bind] at hu
    | true =>
      simp only [checkSelectors, hv, if_true, bind, Except.bind] at hu
      rcases write8_ok hu with ⟨r, rfl, rfl⟩ | ⟨rfl, hs, rfl⟩
      · exact .inr (.inl ⟨r, imm8, rfl, rfl⟩)
      · exact .inr (.inr (.inr (.inl ⟨imm8, rfl, hs, rfl⟩)))
  · refine .inl ⟨info, rfl, ?_⟩
    cases hv : dst.valid with
    | false => exact .inl ⟨by simpa [checkSelectors, hv, bind, Except.bind, eq_comm] using hi, hv⟩
    | true =>
      simp only [checkSelectors, hv, if_true, bind, Except.bind] at hi
      rcases write8_error hi with ⟨hf, -⟩ | ⟨hs, hd⟩
      · rw [hv] at hf; cases hf
      · exact .inr (.inl ⟨hd, hs⟩)

theorem execMv_cases {dst : Sel8} {src : Sel8} {s t : State} (h : execMv dst src s = .next t) : ExecCase (.mv dst src) s t := by
  unfold execMv at h
  rcases attempt_cases h with ⟨u, hu, rfl⟩ | ⟨info, hi, rfl⟩
  · cases hv : (dst.valid && src.valid) with
    | false => simp [checkSelectors, hv, bind, Except.bind] at hu
    | true =>
      simp only [checkSelectors, hv, if_true, bind, Except.bind] at hu
      cases hr : read8 src (s.advance Mnemonic.mv.length) with
      | error e => simp [hr] at hu
      | ok v =>
        simp only [hr] at hu
        rcases write8_ok hu with ⟨r, rfl, rfl⟩ | ⟨rfl, hs, rfl⟩
        · exact .inr (.inl ⟨r, v, rfl, rfl⟩)
        · exact .inr (.inr (.inr (.inl ⟨v, rfl, hs, rfl⟩)))
  · refine .inl ⟨info, rfl, ?_⟩
    cases hv : (dst.valid && src.valid) with
    | false => exact .inl ⟨by simpa [checkSelectors, hv, bind, Except.bind, eq_comm] using hi, hv⟩
    | true =>
      have hv' := hv
      rw [Bool.and_eq_true] at hv'
      simp only [checkSelectors, hv, if_true, bind, Except.bind] at hi
      cases hr : read8 src (s.advance Mnemonic.mv.length) with
      | error e =>
        simp only [hr, Except.error.injEq] at hi
        subst hi
        rcases read8_error hr with ⟨hf, -⟩ | ⟨hs, hd⟩
        · rw [hv'.2] at hf; cases hf
        · exact .inr (.inl ⟨hd, hs⟩)
      | ok v =>
        simp only [hr] at hi
        rcases write8_error hi with ⟨hf, -⟩ | ⟨hs, hd⟩
        · rw [hv'.1] at hf; cases hf
        · exact .inr (.inl ⟨hd, hs⟩)

theorem execMvi32_cases {dst : Sel32} {imm32 : Word} {s t : State} (h : execMvi32 dst imm32 s = .next t) : ExecCase (.mvi32 dst imm32) s t := by
  unfold execMvi32 at h
  rcases attempt_cases h with ⟨u, hu, rfl⟩ | ⟨info, hi, rfl⟩
  · cases dst with
    | zero => simp [checkSelectors, Sel32.valid, bind, Except.bind] at hu
    | seven => simp [checkSelectors, Sel32.valid, bind, Except.bind] at hu
    | reg r =>
      refine .inr (.inr (.inl ⟨r, imm32, rfl, ?_⟩))
      simp only [checkSelectors, Sel32.valid, if_true, bind, Except.bind, write32, Except.ok.injEq] at hu
      rw [← hu]; rfl
  · cases dst with
    | zero =>
      exact .inl ⟨info, rfl, .inl ⟨by simpa [checkSelectors, Sel32.valid, bind, Except.bind, eq_comm] using hi, rfl⟩⟩
    | seven =>
      exact .inl ⟨info, rfl, .inl ⟨by simpa [checkSelectors, Sel32.valid, bind, Except.bind, eq_comm] using hi, rfl⟩⟩
    | reg r => simp [checkSelectors, Sel32.valid, bind, Except.bind, write32] at hi

theorem execMv32_cases {dst : Sel32} {src : Sel32} {s t : State} (h : execMv32 dst src s = .next t) : ExecCase (.mv32 dst src) s t := by
  unfold execMv32 at h
  rcases attempt_cases h with ⟨u, hu, rfl⟩ | ⟨info, hi, rfl⟩
  · cases dst <;> cases src <;>
      simp only [checkSelectors, Sel32.valid, bind, Except.bind, write32, read32, Bool.and_self, Bool.and_true,
        Bool.and_false, Bool.false_eq_true, if_true, if_false, Except.ok.injEq, reduceCtorEq] at hu
    next r q => exact .inr (.inr (.inl ⟨r, _, rfl, by rw [← hu]; rfl⟩))
  · refine .inl ⟨info, rfl, .inl ?_⟩
    cases dst <;> cases src <;>
      simp_all [checkSelectors, Sel32.valid, bind, Except.bind, write32, read32, Instr.selectorsValid]

theorem execHalt_cases {s t : State} (h : execHalt s = .next t) : ExecCase .halt s t := by
  unfold execHalt at h
  rcases attempt_cases h with ⟨u, hu, rfl⟩ | ⟨info, hi, rfl⟩
  · cases hu
    exact .inr (.inr (.inr (.inr (.inr (.inl ⟨rfl, rfl⟩)))))
  · cases hi

theorem execOut_cases {s t : State} (h : execOut s = .next t) : ExecCase .out s t := by
  unfold execOut at h
  rcases attempt_cases h with ⟨u, hu, rfl⟩ | ⟨info, hi, rfl⟩
  · cases hu
    exact .inr (.inr (.inr (.inr (.inr (.inr ⟨rfl, rfl⟩)))))
  · cases hi

theorem execJez_cases {target : Word} {s t : State} (h : execJez target s = .next t) : ExecCase (.jez target) s t := by
  unfold execJez at h
  rcases attempt_cases h with ⟨u, hu, rfl⟩ | ⟨info, hi, rfl⟩
  · simp only [jumpIf, Except.ok.injEq] at hu
    split at hu
    · subst hu; exact .inr (.inr (.inl ⟨.pc, target, rfl, rfl⟩))
    · subst hu; exact .inr (.inr (.inr (.inr (.inl ⟨⟨target, .inl rfl⟩, rfl⟩))))
  · cases hi

theorem execJnz_cases {target : Word} {s t : State} (h : execJnz target s = .next t) : ExecCase (.jnz target) s t := by
  unfold execJnz at h
  rcases attempt_cases h with ⟨u, hu, rfl⟩ | ⟨info, hi, rfl⟩
  · simp only [jumpIf, Except.ok.injEq] at hu
    split at hu
    · subst hu; exact .inr (.inr (.inl ⟨.pc, target, rfl, rfl⟩))
    · subst hu; exact .inr (.inr (.inr (.inr (.inl ⟨⟨target, .inr rfl⟩, rfl⟩))))
  · cases hi

theorem execCmp_cases {s t : State} (h : execCmp s = .next t) : ExecCase .cmp s t := by
  unfold execCmp byteOp at h
  rcases attempt_cases h with ⟨u, hu, rfl⟩ | ⟨info, hi, rfl⟩
  · cases hu; exact .inr (.inl ⟨.f, _, rfl, rfl⟩)
  · cases hi

theorem execAdd_cases {s t : State} (h : execAdd s = .next t) : ExecCase .add s t := by
  unfold execAdd byteOp at h
  rcases attempt_cases h with ⟨u, hu, rfl⟩ | ⟨info, hi, rfl⟩
  · cases hu; exact .inr (.inl ⟨.a, _, rfl, rfl⟩)
  · cases hi

theorem execSub_cases {s t : State} (h : execSub s = .next t) : ExecCase .sub s t := by
  unfold execSub byteOp at h
  rcases attempt_cases h with ⟨u, hu, rfl⟩ | ⟨info, hi, rfl⟩
  · cases hu; exact .inr (.inl ⟨.a, _, rfl, rfl⟩)
  · cases hi

theorem execXor_cases {s t : State} (h : execXor s = .next t) : ExecCase .xor s t := by
  unfold execXor byteOp at h
  rcases attempt_cases h with ⟨u, hu, rfl⟩ | ⟨info, hi, rfl⟩
  · cases hu; exact .inr (.inl ⟨.a, _, rfl, rfl⟩)
  · cases hi

theorem execAptr_cases {imm8 : Byte} {s t : State} (h : execAptr imm8 s = .next t) : ExecCase (.aptr imm8) s t := by
  unfold execAptr at h
  rcases attempt_cases h with ⟨u, hu, rfl⟩ | ⟨info, hi, rfl⟩
  · simp only [addToPtr] at hu
    split at hu
    · cases hu
    · cases hu; exact .inr (.inr (.inl ⟨.ptr, _, rfl, rfl⟩))
  · simp only [addToPtr] at hi
    split at hi
    · next hs => cases hi; exact .inl ⟨_, rfl, .inr (.inr ⟨rfl, imm8, rfl, hs⟩)⟩
    · cases hi

/-- Everything `exec` can do. -/
theorem exec_cases {i : Instr} {s t : State} (h : exec i s = .next t) : ExecCase i s t := by
  cases i with
  | mvi dst imm8 => exact execMvi_cases h
  | mv dst src => exact execMv_cases h
  | mvi32 dst imm32 => exact execMvi32_cases h
  | mv32 dst src => exact execMv32_cases h
  | halt => exact execHalt_cases h
  | out => exact execOut_cases h
  | jez target => exact execJez_cases h
  | jnz target => exact execJnz_cases h
  | cmp => exact execCmp_cases h
  | add => exact execAdd_cases h
  | sub => exact execSub_cases h
  | xor => exact execXor_cases h
  | aptr imm8 => exact execAptr_cases h

/-- Whether `attempt`'s effect succeeds or raises, it answers a next state. -/
theorem attempt_answers (len : Nat) (effect : State → Except FaultInfo State) (s : State) :
    ∃ t, attempt len effect s = .next t := by
  cases he : effect (s.advance len) with
  | ok u => exact ⟨_, attempt_ok he⟩
  | error info => exact ⟨_, attempt_error he⟩

end Sys2Proof.Machine
end

