-- ==== Sys2Proof/Laws/Engine.lean ====
section
/-! SUPPORT. Everything a step can do, said once: the watchdog, the fetch, the iteration, the host's turn. -/

namespace Sys2Proof.Machine

/-- While a run is in progress a step is an iteration. -/
theorem step_running {s : State} (h : s.status = .running) : step s = iteration s := by
  simp only [step, sequencerStep, h]

/-- With no run in progress a step is the host's turn. -/
theorem step_not_running {s : State} (h : s.status ≠ .running) : step s = hostTurn s := by
  unfold step sequencerStep
  cases hs : s.status <;> first | rfl | exact absurd hs h

/-- The default timeout: elapsed once the free number of iterations is completed. -/
theorem watchdogFires_unset {s : State} (h : s.watchdog = .unset) :
    watchdogFires s = true ↔ Config.defaultTimeout s.resets ≤ s.icount := by
  simp only [watchdogFires, h, decide_eq_true_eq]

/-- The count reading. -/
theorem watchdogFires_maxInstr {s : State} {n : Nat} (h : s.watchdog = .maxInstr n) :
    watchdogFires s = true ↔ n ≤ s.icount := by
  simp only [watchdogFires, h, decide_eq_true_eq]

/-- The wall-clock reading: the next sample, and `true` after the last. -/
theorem watchdogFires_wallClock {s : State} {samples : List Bool} (h : s.watchdog = .wallClock samples) :
    watchdogFires s = samples.headD true := by
  cases samples <;> simp only [watchdogFires, h, List.headD_nil, List.headD_cons]

/-- The wall-clock reading: taking the sample moves the list on. -/
theorem takeSample_wallClock {s : State} {samples : List Bool} (h : s.watchdog = .wallClock samples) :
    (takeSample s).watchdog = .wallClock samples.tail := by
  cases samples <;> simp only [takeSample, h, List.tail_nil, List.tail_cons]

/-- R212 in one lemma: with no iteration left the watchdog fires. -/
theorem watchdogFires_of_iterationsLeft {s : State} (h : iterationsLeft s = 0) : watchdogFires s = true := by
  unfold iterationsLeft at h
  split at h
  · next hw => exact (watchdogFires_unset hw).2 (by omega)
  · next samples hw => rw [watchdogFires_wallClock hw, List.length_eq_zero_iff.1 h]; rfl
  · next n hw => exact (watchdogFires_maxInstr hw).2 (by omega)

/-- Every completed iteration uses up one of those left: with the sample taken, the same watchdog and one more completed
instruction, one fewer is left. -/
theorem iterationsLeft_next {s t : State} (hw : t.watchdog = (takeSample s).watchdog) (hr : t.resets = s.resets)
    (hc : t.icount = s.icount + 1) (h : watchdogFires s = false) : iterationsLeft t + 1 = iterationsLeft s := by
  cases hs : s.watchdog with
  | unset =>
    have ht : t.watchdog = .unset := by rw [hw]; simp only [takeSample, hs]
    have hf : ¬ Config.defaultTimeout s.resets ≤ s.icount := fun hle => by
      rw [(watchdogFires_unset hs).2 hle] at h; cases h
    simp only [iterationsLeft, hs, ht, hr, hc]
    omega
  | wallClock samples =>
    have ht : t.watchdog = .wallClock samples.tail := by rw [hw, takeSample_wallClock hs]
    cases samples with
    | nil => rw [watchdogFires_wallClock hs] at h; cases h
    | cons b rest => simp only [iterationsLeft, hs, ht, List.tail_cons, List.length_cons]
  | maxInstr n =>
    have ht : t.watchdog = .maxInstr n := by rw [hw]; simp only [takeSample, hs]
    have hf : ¬ n ≤ s.icount := fun hle => by
      rw [(watchdogFires_maxInstr hs).2 hle] at h; cases h
    simp only [iterationsLeft, hs, ht, hc]
    omega

/-- The fetch looks at `pc` and memory only. -/
theorem fetchWindow_congr {s t : State} (hm : s.mem = t.mem) (hp : s.x32.pc = t.x32.pc) :
    fetchWindow s = fetchWindow t := by
  simp only [fetchWindow, hm, hp]

@[simp] theorem fetchWindow_takeSample (s : State) : fetchWindow (takeSample s) = fetchWindow s :=
  fetchWindow_congr (takeSample_mem s) (by rw [takeSample_x32])

@[simp] theorem fetch_takeSample (s : State) : fetch (takeSample s) = fetch s := by
  simp only [fetch, fetchWindow_takeSample, takeSample_x32]

/-- What the fetch answers is what the decoder reads from the window. -/
theorem fetch_ok {s : State} {i : Instr} (h : fetch s = .ok i) : ∃ rest, decode (fetchWindow s) = .ok (i, rest) := by
  unfold fetch at h
  split at h
  · next j rest he => cases h; exact ⟨rest, he⟩
  · cases h
  · cases h
  · cases h

/-- Where the decoder reads an instruction from the window, the fetch answers it. -/
theorem fetch_of_decode {s : State} {i : Instr} {rest : List Byte} (h : decode (fetchWindow s) = .ok (i, rest)) :
    fetch s = .ok i := by
  simp only [fetch, h]

/-- The three fatal conditions of the fetch. -/
theorem fetch_error {s : State} {info : FaultInfo} (h : fetch s = .error info) :
    (decode (fetchWindow s) = .error .noByte ∧ info = .fetchAddress s.x32.pc.toNat) ∨
      (∃ b, decode (fetchWindow s) = .error (.unsupportedOpcode b) ∧ info = .opcodeByte b) ∨
      (∃ len, decode (fetchWindow s) = .error (.truncated len) ∧ info = .extentAddress (s.x32.pc.toNat + len - 1)) := by
  unfold fetch at h
  split at h
  · cases h
  · next he => cases h; exact .inl ⟨he, rfl⟩
  · next b he => cases h; exact .inr (.inl ⟨b, he, rfl⟩)
  · next len he => cases h; exact .inr (.inr ⟨len, he, rfl⟩)

/-- Everything an iteration can do: time out, raise at the fetch, or run the fetched instruction. -/
theorem iteration_cases {s t : State} (h : iteration s = .next t) :
    (watchdogFires s = true ∧ t = (takeSample s).setStatus .timedOut) ∨
      (watchdogFires s = false ∧ ∃ info, fetch s = .error info ∧ t = (takeSample s).raise info) ∨
      (watchdogFires s = false ∧ ∃ i, fetch s = .ok i ∧ exec i (takeSample s) = .next t) := by
  unfold iteration at h
  split at h
  · next hw => cases h; exact .inl ⟨hw, rfl⟩
  · next hw =>
    have hw' : watchdogFires s = false := by simpa using hw
    unfold runInstruction at h
    rw [fetch_takeSample] at h
    cases hf : fetch s with
    | ok i => exact .inr (.inr ⟨hw', i, rfl, by simpa [hf] using h⟩)
    | error info => exact .inr (.inl ⟨hw', info, rfl, by simpa [hf] using h.symm⟩)

/-- Everything a transaction of the host can do when it is not refused. -/
theorem transact_cases {m : HostMove} {s t : State} (h : transact m s = .next t) :
    (m = .reset ∧ t = hostReset s) ∨
      (s.status = .idle ∧
        ((∃ image, m = .loadImage image ∧ image.length < 2 ^ 32 ∧ t = { s with mem := Memory.ofImage image }) ∨
          (∃ pcInit ptrInit, m = .preload pcInit ptrInit ∧ t = (s.set32 .pc pcInit).set32 .ptr ptrInit) ∨
          (∃ w, m = .provideWatchdog w ∧ t = { s with watchdog := w }) ∨
          (m = .start ∧ t = s.setStatus .running))) := by
  have inIdle_next : ∀ {why u}, inIdle s why u = .next t → s.status = .idle ∧ t = u := by
    intro why u hu
    unfold inIdle at hu
    split at hu
    · next hs => cases hu; exact ⟨hs, rfl⟩
    · cases hu
  cases m with
  | reset => cases h; exact .inl ⟨rfl, rfl⟩
  | loadImage image =>
    simp only [transact] at h
    split at h
    · next hl =>
      obtain ⟨hs, rfl⟩ := inIdle_next h
      exact .inr ⟨hs, .inl ⟨image, rfl, hl, rfl⟩⟩
    · cases h
  | preload pcInit ptrInit =>
    obtain ⟨hs, rfl⟩ := inIdle_next h
    exact .inr ⟨hs, .inr (.inl ⟨pcInit, ptrInit, rfl, rfl⟩)⟩
  | provideWatchdog w =>
    obtain ⟨hs, rfl⟩ := inIdle_next h
    exact .inr ⟨hs, .inr (.inr (.inl ⟨w, rfl, rfl⟩))⟩
  | start =>
    obtain ⟨hs, rfl⟩ := inIdle_next h
    exact .inr ⟨hs, .inr (.inr (.inr ⟨rfl, rfl⟩))⟩

/-- Everything the host's turn can do when it is not refused. -/
theorem hostTurn_cases {s t : State} (h : hostTurn s = .next t) :
    (s.hostMoves = [] ∧ t = s) ∨
      ∃ m rest, s.hostMoves = m :: rest ∧ transact m { s with hostMoves := rest } = .next t := by
  unfold hostTurn at h
  cases hm : s.hostMoves with
  | nil => exact .inl ⟨rfl, by simpa [hm] using h.symm⟩
  | cons m rest => exact .inr ⟨m, rest, rfl, by simpa [hm] using h⟩

/-- With no run in progress and a pending move, the step performs it. -/
theorem step_hostMove {s : State} {m : HostMove} {rest : List HostMove} (hs : s.status ≠ .running)
    (hm : s.hostMoves = m :: rest) : step s = transact m { s with hostMoves := rest } := by
  rw [step_not_running hs]
  simp only [hostTurn, hm]

/-- A run is a step and then a run. -/
theorem run_succ {s t : State} (h : step s = .next t) (n : Nat) :
    Host.Core.run Sys2Proof.core (n + 1) s = Host.Core.run Sys2Proof.core n t := by
  have h' : Sys2Proof.core.step s = .next t := h
  simp only [Host.Core.run, h']

/-- Once a run has ended, and with no pending move, the machine stays as it is. -/
theorem run_stays {s : State} (hs : s.status ≠ .running) (hm : s.hostMoves = []) :
    ∀ n, Host.Core.run Sys2Proof.core n s = .next s
  | 0 => rfl
  | n + 1 => by
    have hstep : Sys2Proof.core.step s = .next s := by
      show step s = .next s
      rw [step_not_running hs]
      simp only [hostTurn, hm]
    simp only [Host.Core.run, hstep]
    exact run_stays hs hm n

end Sys2Proof.Machine
end

