-- ==== Sys2Proof/Laws/PerInstr.lean ====
section
/-! SUPPORT. What is said of every instruction as syntax, one lemma per constructor. -/

namespace Sys2Proof.Laws

/-- The encoding has as many bytes as the decoder's length table gives the mnemonic, and that is 1, 2 or 5 (R80). -/
def Length.Statement (i : Instr) : Prop := (encode i).length = i.length ∧ (i.length = 1 ∨ i.length = 2 ∨ i.length = 5)

theorem Length.mvi (dst : Sel8) (imm8 : Byte) : Length.Statement (.mvi dst imm8) := ⟨rfl, .inr (.inl rfl)⟩
theorem Length.mv (dst src : Sel8) : Length.Statement (.mv dst src) := ⟨rfl, .inl rfl⟩
theorem Length.mvi32 (dst : Sel32) (imm32 : Word) : Length.Statement (.mvi32 dst imm32) := ⟨rfl, .inr (.inr rfl)⟩
theorem Length.mv32 (dst src : Sel32) : Length.Statement (.mv32 dst src) := ⟨rfl, .inl rfl⟩
theorem Length.halt : Length.Statement .halt := ⟨rfl, .inl rfl⟩
theorem Length.out : Length.Statement .out := ⟨rfl, .inl rfl⟩
theorem Length.jez (imm32 : Word) : Length.Statement (.jez imm32) := ⟨rfl, .inr (.inr rfl)⟩
theorem Length.jnz (imm32 : Word) : Length.Statement (.jnz imm32) := ⟨rfl, .inr (.inr rfl)⟩
theorem Length.cmp : Length.Statement .cmp := ⟨rfl, .inl rfl⟩
theorem Length.add : Length.Statement .add := ⟨rfl, .inl rfl⟩
theorem Length.sub : Length.Statement .sub := ⟨rfl, .inl rfl⟩
theorem Length.xor : Length.Statement .xor := ⟨rfl, .inl rfl⟩
theorem Length.aptr (imm8 : Byte) : Length.Statement (.aptr imm8) := ⟨rfl, .inr (.inl rfl)⟩

end Sys2Proof.Laws
end

