-- ==== Sys2Proof/Tests/Slice0.lean ====
section
/-! SUPPORT. Tests, with words from `30_encoding.md` and results from `95_test_vectors.md` (named by their ids), and for
every statement that has hypotheses a witness that meets them. -/

namespace Sys2Proof.Tests

open Sys2Proof Sys2Proof.Machine

/-- A run in progress whose watchdog fires after the tests' end (the vectors' "watchdog off", log 22): `MEMSIZE`, the address of the bytes (and `pc`), the bytes; the rest as reset. -/
def running (size ia : Nat) (bytes : List Byte) : State :=
  { State.reset with
    mem := ({ size := size, cells := [] } : Memory).writeList ia bytes
    status := .running
    watchdog := .maxInstr 1000
    x32 := { State.reset.x32 with pc := BitVec.ofNat 32 ia } }

/-- What one step leaves, looked at through `f`. -/
def after {α : Type} (s : State) (f : State → α) : Option α :=
  match step s with
  | .next t => some (f t)
  | .fault _ => none
  | .refused _ => none

/-! ## Well-formedness -/

theorem test_wellFormed_mv_source_zero_refused : (Instr.mv (.reg .a) .zero).wellFormed = false := by decide
theorem test_wellFormed_mv32_source_zero_refused : (Instr.mv32 (.reg .la) .zero).wellFormed = false := by decide
theorem test_wellFormed_invalid_destination_has_an_encoding :
    (Instr.mv .zero (.reg .a)).wellFormed = true ∧ (Instr.mvi32 .seven 0).wellFormed = true := by decide

/-! ## Decoding: a word for every constructor -/

/-- V-DEC-12 and S5's first instruction. -/
theorem test_decode_mvi : decode [0b01001000#8, 0x41#8] = .ok (.mvi (.reg .a) 0x41#8, []) := rfl
/-- V-MV-1's `MV b <- a`: dst 2, src 1. -/
theorem test_decode_mv : decode [0b01010001#8] = .ok (.mv (.reg .b) (.reg .a), []) := rfl
/-- V-MVI32-1. -/
theorem test_decode_mvi32 :
    decode [0b10010000#8, 0x78#8, 0x56#8, 0x34#8, 0x12#8] = .ok (.mvi32 (.reg .lb) 0x12345678#32, []) := rfl
/-- V-MV32-8's `MV32 ptr <- lb`: dst 5, src 2. -/
theorem test_decode_mv32 : decode [0b10101010#8] = .ok (.mv32 (.reg .ptr) (.reg .lb), []) := rfl
theorem test_decode_halt : decode [0b00000001#8] = .ok (.halt, []) := rfl
theorem test_decode_out : decode [0b00000010#8] = .ok (.out, []) := rfl
theorem test_decode_jez :
    decode [0b00100001#8, 0x78#8, 0x56#8, 0x34#8, 0x12#8] = .ok (.jez 0x12345678#32, []) := rfl
theorem test_decode_jnz :
    decode [0b00100010#8, 0x00#8, 0x01#8, 0x00#8, 0x00#8, 0xFF#8] = .ok (.jnz 0x100#32, [0xFF#8]) := rfl
theorem test_decode_cmp : decode [0b11000001#8] = .ok (.cmp, []) := rfl
theorem test_decode_add : decode [0b11000010#8] = .ok (.add, []) := rfl
theorem test_decode_sub : decode [0b11000011#8] = .ok (.sub, []) := rfl
theorem test_decode_xor : decode [0b11000100#8] = .ok (.xor, []) := rfl
theorem test_decode_aptr : decode [0b11100001#8, 0x0A#8] = .ok (.aptr 0x0A#8, []) := rfl
/-- Every selector of both families, as destination and as source (R86). -/
theorem test_decode_selectors :
    (List.range 8).map (fun n => (Sel8.ofBits (BitVec.ofNat 3 n)).spelling) =
      ["0", "a", "b", "c", "d", "e", "f", "(ptr+c)"] ∧
    (List.range 8).map (fun n => (Sel32.ofBits (BitVec.ofNat 3 n)).spelling) =
      ["0", "la", "lb", "lc", "ld", "ptr", "pc", "7"] := by decide
/-- V-DEC-1, 4, 5, 8, 28, 33, 34, 36, 37. -/
theorem test_decode_unsupported :
    [0x00#8, 0x03#8, 0x20#8, 0x3F#8, 0xC0#8, 0xC5#8, 0xE0#8, 0xE2#8, 0xFF#8].all
      (fun b => (decodeByte b).isNone) = true := by decide
/-- V-IMM-3, the reading that is not normative, against V-IMM-1. -/
theorem test_decode_imm32_defect :
    imm32OfBytes true 0x01#8 0x02#8 0x03#8 0x04#8 = 0x04040201#32 ∧
    imm32OfBytes Config.imm32Defect 0x01#8 0x02#8 0x03#8 0x04#8 = 0x04030201#32 := by decide
theorem test_decodeTableWord : decodeTableWord 40 0x1234567890 = some (.mvi32 (.reg .lb) 0x12345678#32) := by decide
/-- R95's spelling. -/
theorem test_spelling : (Instr.mvi .ind 170#8).spelling = "MVI (ptr+c) <- 170" ∧
    (Instr.jez 16#32).spelling = "JEZ 16" := by decide

/-! ## One step of each instruction -/

/-- V-MV-5: the address uses the old `c`. -/
theorem test_mv_reads_before_it_writes :
    after { running 32 0 [0x5F#8] with
        x8.c := 0x02, x32.ptr := 0x10, mem := { size := 32, cells := [(0, 0x5F#8), (0x12, 0x09#8)] } }
      (fun t => (t.x8.c, t.x32.pc)) = some (0x09#8, 1#32) := by decide
/-- V-MV-9: `c` is unsigned. -/
theorem test_mv_outside_memory :
    after { running 256 0 [0x79#8] with x8.a := 0x07, x8.c := 0x80, x32.ptr := 0x80 }
      (fun t => (t.status, t.x32.pc, t.icount)) =
        some (.faulted .outOfBounds 0 (.dataAddress 0x100), 0#32, 0) := by decide
/-- V-MVI-2: it writes its own immediate. -/
theorem test_mvi_indirect :
    after { running 16 4 [0x78#8, 0xAA#8] with x8.c := 0x02, x32.ptr := 3 }
      (fun t => (t.mem.read? 5, t.x32.pc)) = some (some 0xAA#8, 6#32) := by decide
/-- V-MVI-5: the immediate is missing. -/
theorem test_mvi_past_memory :
    after (running 1 0 [0x48#8]) (fun t => (t.status, t.x32.pc)) =
      some (.faulted .outOfBounds 0 (.extentAddress 1), 0#32) := by decide
/-- V-MV32-1: `pc` reads as the address of the next instruction. -/
theorem test_mv32_reads_advanced_pc :
    after (running 32 0x10 [0x8E#8]) (fun t => (t.x32.la, t.x32.pc)) = some (0x11#32, 0x11#32) := by decide
/-- V-MV32-2. -/
theorem test_mv32_jumps :
    after { running 32 0 [0xB1#8] with x32.la := 0x14 } (fun t => t.x32.pc) = some 0x14#32 := by decide
/-- V-IMM-2. -/
theorem test_mvi32_unsigned :
    after (running 8 0 [0x88#8, 0xFF#8, 0x00#8, 0x00#8, 0x80#8]) (fun t => (t.x32.la, t.x32.pc)) =
      some (0x800000FF#32, 5#32) := by decide
/-- V-MVI32-4: destination 7. -/
theorem test_mvi32_invalid_destination :
    after (running 8 0 [0xB8#8, 0x00#8, 0x00#8, 0x00#8, 0x00#8]) (fun t => (t.status, t.x32.pc)) =
      some (.faulted .outOfBounds 0 .selector, 0#32) := by decide
/-- V-HALT-1. -/
theorem test_halt :
    after (running 1 0 [0x01#8]) (fun t => (t.status, t.x32.pc, t.icount)) = some (.halted, 1#32, 1) := by decide
/-- V-OUT-1. -/
theorem test_out :
    after { running 4 0 [0x02#8] with x8.a := 0x41 } (fun t => (t.outseq, t.x8.a, t.x32.pc)) =
      some ([0x41#8], 0x41#8, 1#32) := by decide
/-- V-JEZ-1. -/
theorem test_jez_taken :
    after (running 64 0x20 [0x21#8, 0x10#8, 0x00#8, 0x00#8, 0x00#8]) (fun t => t.x32.pc) = some 0x10#32 := by decide
/-- V-JEZ-2. -/
theorem test_jez_not_taken :
    after { running 64 0x20 [0x21#8, 0x10#8, 0x00#8, 0x00#8, 0x00#8] with x8.f := 1 } (fun t => t.x32.pc) =
      some 0x25#32 := by decide
/-- V-JNZ-3: any nonzero `f`. -/
theorem test_jnz_taken :
    after { running 64 0x20 [0x22#8, 0x30#8, 0x00#8, 0x00#8, 0x00#8] with x8.f := 0x80 } (fun t => t.x32.pc) =
      some 0x30#32 := by decide
/-- V-JNZ-2. -/
theorem test_jnz_not_taken :
    after (running 64 0x20 [0x22#8, 0x00#8, 0x01#8, 0x00#8, 0x00#8]) (fun t => t.x32.pc) = some 0x25#32 := by decide
/-- V-CMP-3: the whole byte is overwritten. -/
theorem test_cmp_unequal :
    after { running 4 0 [0xC1#8] with x8.a := 1, x8.b := 2, x8.f := 0x7F } (fun t => (t.x8.f, t.x32.pc)) =
      some (1#8, 1#32) := by decide
/-- V-CMP-4. -/
theorem test_cmp_equal :
    after { running 4 0 [0xC1#8] with x8.a := 9, x8.b := 9, x8.f := 0x7F } (fun t => t.x8.f) = some 0#8 := by decide
/-- V-ADD-1. -/
theorem test_add_wraps :
    after { running 4 0 [0xC2#8] with x8.a := 0xFF, x8.b := 1 } (fun t => (t.x8.a, t.x32.pc)) =
      some (0#8, 1#32) := by decide
/-- V-ADD-5: no flag. -/
theorem test_add_writes_no_flag :
    after { running 4 0 [0xC2#8] with x8.a := 0x7F, x8.b := 1 } (fun t => (t.x8.a, t.x8.f)) =
      some (0x80#8, 0#8) := by decide
/-- V-SUB-1. -/
theorem test_sub_wraps :
    after { running 4 0 [0xC3#8] with x8.a := 0, x8.b := 1 } (fun t => (t.x8.a, t.x32.pc)) =
      some (0xFF#8, 1#32) := by decide
/-- V-XOR-2. -/
theorem test_xor :
    after { running 4 0 [0xC4#8] with x8.a := 0x0F, x8.b := 0x3C } (fun t => (t.x8.a, t.x32.pc)) =
      some (0x33#8, 1#32) := by decide
/-- V-APTR-2: the immediate is unsigned. -/
theorem test_aptr_unsigned :
    after { running 4 0 [0xE1#8, 0x80#8] with x32.ptr := 0x100 } (fun t => (t.x32.ptr, t.x32.pc)) =
      some (0x180#32, 2#32) := by decide
/-- V-APTR-4. -/
theorem test_aptr_overflow :
    after { running 4 0 [0xE1#8, 0xFF#8] with x32.ptr := 0xFFFFFF01 } (fun t => (t.status, t.x32.ptr, t.x32.pc)) =
      some (.faulted .outOfBounds 0 .ptrOverflow, 0xFFFFFF01#32, 0#32) := by decide

/-! ## The engine -/

/-- V-ENG-1. -/
theorem test_engine_unsupported :
    after (running 1 0 [0x00#8]) (fun t => (t.status, t.x32.pc)) =
      some (.faulted .unsupportedOpcode 0 (.opcodeByte 0x00#8), 0#32) := by decide
/-- V-ENG-2: the watchdog is checked before the fetch. -/
theorem test_engine_watchdog_first :
    after { running 1 0 [0x00#8] with watchdog := .maxInstr 0 } (fun t => (t.status, t.x32.pc)) =
      some (.timedOut, 0#32) := by decide
/-- R212: after the last sample the timeout has elapsed. -/
theorem test_engine_wallClock_ends :
    after { running 8 0 [0xB0#8] with watchdog := .wallClock [false] }
      (fun t => (t.x32.pc, t.status, after t (fun u => (u.status, u.icount)))) =
        some (0#32, .running, some (.timedOut, 1)) := by decide
/-- V-ENG-3. -/
theorem test_engine_no_memory :
    after (running 0 0 []) (fun t => t.status) = some (.faulted .outOfBounds 0 (.fetchAddress 0)) := by decide
/-- V-MV-12, its second iteration's fetch: the stored byte is the HALT that runs. -/
theorem test_engine_fetches_what_was_stored :
    after { running 16 0 [0x79#8, 0x00#8] with x8.a := 1, x8.c := 1 } (fun t => after t (fun u => (u.status, u.x32.pc))) =
      some (some (.halted, 2#32)) := by decide
/-- R241, R242: the image's bytes and length. -/
theorem test_engine_load :
    after { State.reset with hostMoves := [.loadImage [0x48#8, 0x00#8, 0x02#8]] }
      (fun t => (t.mem.size, t.mem.read? 0, t.mem.read? 1, t.mem.read? 3, t.hostMoves)) =
        some (3, some 0x48#8, some 0x00#8, none, []) := by decide
/-- A table word runs as the first instruction after reset. -/
theorem test_withFetchWord :
    after (State.reset.withFetchWord 40 0x1234567890) (fun t => (t.x32.lb, t.x32.pc, t.status)) =
      some (0x12345678#32, 5#32, .running) := by decide

/-! ## Witnesses: states and operands that meet the hypotheses of each statement -/

theorem witness_DecodeOfEncodeIsTheInstruction :
    (Instr.mv .ind .ind).wellFormed = true ∧ (Instr.mvi .zero 0xFF#8).wellFormed = true ∧
    (Instr.mv32 .seven .seven).wellFormed = true ∧ (Instr.jez 0xFFFFFFFF#32).wellFormed = true := by decide
theorem witness_DecodedBytesAreItsEncoding : decode [0xE1#8, 0xFF#8, 0x01#8] = .ok (.aptr 0xFF#8, [0x01#8]) := rfl
/-- The first and the last byte of each half of each branch. -/
theorem witness_MoveFamilyBytesAllDecode :
    (∀ b ∈ [0x40#8, 0x78#8], b &&& 0xC0#8 = 0x40#8 ∧ b &&& 0x07#8 = 0) ∧
    (∀ b ∈ [0x41#8, 0x7F#8], b &&& 0xC0#8 = 0x40#8 ∧ b &&& 0x07#8 ≠ 0) ∧
    (∀ b ∈ [0x80#8, 0xB8#8], b &&& 0xC0#8 = 0x80#8 ∧ b &&& 0x07#8 = 0) ∧
    (∀ b ∈ [0x81#8, 0xBF#8], b &&& 0xC0#8 = 0x80#8 ∧ b &&& 0x07#8 ≠ 0) := by decide
theorem witness_FixedOpcodeTableIsComplete :
    ∀ b ∈ [0x00#8, 0x3F#8, 0xC0#8, 0xFF#8], b &&& 0xC0#8 = 0x00#8 ∨ b &&& 0xC0#8 = 0xC0#8 := by decide
theorem witness_Imm32IsLittleEndianFromMemory :
    fetch (running 5 0 [0x21#8, 0x78#8, 0x56#8, 0x34#8, 0x12#8]) = .ok (.jez 0x12345678#32) ∧
    fetch (running 5 0 [0x22#8, 0x78#8, 0x56#8, 0x34#8, 0x12#8]) = .ok (.jnz 0x12345678#32) ∧
    fetch (running 8 3 [0x90#8, 0xFF#8, 0x00#8, 0x00#8, 0x80#8]) = .ok (.mvi32 (.reg .lb) 0x800000FF#32) :=
  ⟨rfl, rfl, rfl⟩
theorem witness_Imm8IsTheFollowingByte :
    fetch (running 2 0 [0xE1#8, 0xFF#8]) = .ok (.aptr 0xFF#8) ∧
    fetch (running 2 0 [0x78#8, 0x80#8]) = .ok (.mvi .ind 0x80#8) := ⟨rfl, rfl⟩

theorem witness_ResetLeavesTheResetState :
    Status.halted.isTerminal = true ∧
    ∃ t, transact .reset { State.reset with status := .halted, x8.a := 7 } = .next t := ⟨rfl, _, rfl⟩
theorem witness_MemoryIsTheLoadedImage :
    (∃ t, transact .reset (running 2 0 [0x01#8]) = .next t) ∧
    State.reset.status = .idle ∧ [0x48#8, 0x00#8].length < 2 ^ 32 ∧
    (∃ t, transact .start State.reset = .next t) ∧ (∀ image, HostMove.start ≠ .loadImage image) :=
  ⟨⟨_, rfl⟩, rfl, by decide, ⟨_, rfl⟩, fun _ => nofun⟩
theorem witness_RunStartsFromIdleOnly :
    State.reset.status = .idle ∧ (running 1 0 []).status ≠ .idle ∧ Status.timedOut ≠ .idle := by decide
theorem witness_HostMovesOutsideIdleAreRefused :
    (running 1 0 []).status ≠ .idle ∧ [0x01#8].length < 2 ^ 32 := by decide
theorem witness_BootSequenceReachesTheRun :
    let s : State := { State.reset with hostMoves := [.reset, .loadImage [0x02#8, 0x01#8], .preload 1 7,
      .provideWatchdog (.maxInstr 5), .start] }
    [0x02#8, 0x01#8].length < 2 ^ 32 ∧ s.status ≠ .running ∧
      s.hostMoves = [.reset, .loadImage [0x02#8, 0x01#8], .preload 1 7, .provideWatchdog (.maxInstr 5), .start] := by
  decide
theorem witness_TerminalStatusIsLeftByResetOnly :
    Status.halted.isTerminal = true ∧
    (∃ t, step { State.reset with status := .halted } = .next t) ∧
    (∃ t, step { State.reset with status := .halted, hostMoves := [.reset, .start] } = .next t) :=
  ⟨rfl, ⟨_, rfl⟩, ⟨_, rfl⟩⟩
/-- One step that goes on, one that ends the run. -/
theorem witness_OutputIsHandedOverAfterTheRunOnly :
    (∃ t, step (running 2 0 [0x02#8]) = .next t ∧ t.status = .running) ∧
    (∃ t, step (running 1 0 [0x01#8]) = .next t ∧ t.status ≠ .running) :=
  ⟨⟨_, rfl, rfl⟩, ⟨_, rfl, nofun⟩⟩

/-- `icount` at the bound and one below it; both readings of the watchdog. -/
theorem witness_WatchdogTimesOutBeforeTheFetch :
    watchdogFires { running 1 0 [0x01#8] with watchdog := .maxInstr 3, icount := 3 } = true ∧
    watchdogFires { running 1 0 [0x01#8] with watchdog := .maxInstr 3, icount := 2 } = false ∧
    watchdogFires { running 1 0 [0x01#8] with watchdog := .wallClock [true, false] } = true := by decide
theorem witness_StepRunsTheDecodedInstruction :
    Fetches (running 2 0 [0xE1#8, 0xFF#8]) ∧
    decode (fetchWindow (running 2 0 [0xE1#8, 0xFF#8])) = .ok (.aptr 0xFF#8, []) := ⟨⟨rfl, rfl⟩, rfl⟩
theorem witness_RunningStepAnswersNext : (running 0 0 []).status = .running := rfl
/-- `pc` at `MEMSIZE` and above it. -/
theorem witness_OpcodeFetchOutsideMemoryFaults :
    Fetches (running 4 4 []) ∧ (running 4 4 []).mem.size ≤ (running 4 4 []).x32.pc.toNat ∧
    Fetches (running 4 0xFFFFFFFF []) ∧ (running 4 0xFFFFFFFF []).mem.size ≤ (running 4 0xFFFFFFFF []).x32.pc.toNat :=
  ⟨⟨rfl, rfl⟩, by decide, ⟨rfl, rfl⟩, by decide⟩
theorem witness_UnknownOpcodeFaults :
    Fetches (running 1 0 [0xC5#8]) ∧ (running 1 0 [0xC5#8]).mem.read? 0 = some 0xC5#8 ∧ decodeByte 0xC5#8 = none :=
  ⟨⟨rfl, rfl⟩, rfl, rfl⟩
/-- One byte of the instruction is missing. -/
theorem witness_InstructionPastMemoryFaults :
    decodeByte 0x88#8 = some (.mvi32, 5) ∧ Fetches (running 4 0 [0x88#8, 1, 2, 3]) ∧
    (running 4 0 [0x88#8, 1, 2, 3]).mem.read? 0 = some 0x88#8 ∧ (running 4 0 [0x88#8, 1, 2, 3]).mem.size < 0 + 5 :=
  ⟨rfl, ⟨rfl, rfl⟩, rfl, by decide⟩
theorem witness_InvalidSelectorFaults :
    Fetches (running 1 0 [0xBF#8]) ∧
    decode (fetchWindow (running 1 0 [0xBF#8])) = .ok (.mv32 .seven .seven, []) ∧
    (Instr.mv32 .seven .seven).selectorsValid = false ∧
    decode [0x40#8, 0, 0, 0, 0] = .ok (.mvi .zero 0#8, [0, 0, 0]) := ⟨⟨rfl, rfl⟩, rfl, rfl, rfl⟩
theorem witness_FatalConditionIsPrecise :
    (running 1 0 [0x00#8]).status = .running ∧ (running 1 0 [0x00#8]).hostMoves = [] ∧
    ∃ t, step (running 1 0 [0x00#8]) = .next t ∧
      t.status = .faulted .unsupportedOpcode 0 (.opcodeByte 0x00#8) := ⟨rfl, rfl, _, rfl, rfl⟩
theorem witness_CompletedInstructionsAreCounted :
    (∃ t, step (running 2 0 [0x02#8]) = .next t ∧ t.status = .running) ∧
    (∃ t, step (running 1 0 [0x01#8]) = .next t ∧ t.status = .halted) ∧
    (∃ t, step (running 0 0 []) = .next t ∧ t.status ≠ .running ∧ t.status ≠ .halted) :=
  ⟨⟨_, rfl, rfl⟩, ⟨_, rfl, rfl⟩, ⟨_, rfl, nofun, nofun⟩⟩
theorem witness_HaltedExactlyByTheHaltByte :
    (running 1 0 [0x01#8]).status = .running ∧ ∃ t, step (running 1 0 [0x01#8]) = .next t ∧ t.status = .halted :=
  ⟨rfl, _, rfl, rfl⟩

/-- The last address inside memory and the first one outside; for the unreduced sum, one past 2^32 - 1. -/
theorem witness_MvCopiesAByte :
    let s : State := { running 256 0 [0x4F#8] with x32.ptr := 0xFA, x8.c := 0x05 }
    let t : State := { running 256 0 [0x4F#8] with x32.ptr := 0xFF, x8.c := 0x01 }
    let u : State := { running 256 0 [0x4F#8] with x32.ptr := 0xFFFFFFFF, x8.c := 0x01 }
    s.mem.read? (s.x32.ptr.toNat + s.x8.c.toNat) = some 0 ∧
      s.x32.ptr.toNat + s.x8.c.toNat + 1 = s.mem.size ∧ s.mem.wf = true ∧
      t.mem.size = t.x32.ptr.toNat + t.x8.c.toNat ∧ u.mem.size ≤ u.x32.ptr.toNat + u.x8.c.toNat ∧
      Sel8.ind ≠ .zero ∧ Sel8.reg .a ≠ .zero := by decide
theorem witness_MviWritesTheImmediateByte :
    let s : State := { running 256 0 [0x78#8, 0x55#8] with x32.ptr := 0xFA, x8.c := 0x05 }
    let t : State := { running 256 0 [0x78#8, 0x55#8] with x32.ptr := 0xFF, x8.c := 0x01 }
    s.x32.ptr.toNat + s.x8.c.toNat + 1 = s.mem.size ∧ t.mem.size = t.x32.ptr.toNat + t.x8.c.toNat := by decide
/-- For `FaultsPastEnd` of MVI, with every destination the same way: the immediate missing. -/
theorem witness_MviWritesTheImmediateByte_past_memory :
    Fetches (running 1 0 [0x48#8]) ∧
    (running 1 0 [0x48#8]).mem.read? 0 = some (BitVec.ofNat 8 (0x40 + 8 * (Sel8.reg .a).bits.toNat)) ∧
    (running 1 0 [0x48#8]).mem.size < 0 + 2 := ⟨⟨rfl, rfl⟩, by decide, by decide⟩
theorem witness_Mv32CopiesAWord : Reg32.ptr ≠ .pc ∧ Sel32.zero = .zero ∧ Sel32.seven = .seven := by decide
theorem witness_Mvi32WritesTheImmediateWord : Reg32.la ≠ .pc ∧ Sel32.zero = .zero ∧ Sel32.seven = .seven := by decide
theorem witness_Mvi32WritesTheImmediateWord_past_memory :
    Fetches (running 4 0 [0xB0#8, 1, 2, 3]) ∧
    (running 4 0 [0xB0#8, 1, 2, 3]).mem.read? 0 = some (BitVec.ofNat 8 (0x80 + 8 * (Sel32.reg .pc).bits.toNat)) ∧
    (running 4 0 [0xB0#8, 1, 2, 3]).mem.size < 0 + 5 := ⟨⟨rfl, rfl⟩, by decide, by decide⟩
/-- V-APTR-3 and V-APTR-4: the largest sum that fits and the smallest that does not; then the immediate missing. -/
theorem witness_AptrAddsToPtr :
    (0xFFFFFF00#32).toNat + (0xFF#8).toNat < 2 ^ 32 ∧ 2 ^ 32 ≤ (0xFFFFFF01#32).toNat + (0xFF#8).toNat ∧
    Fetches (running 1 0 [0xE1#8]) ∧ (running 1 0 [0xE1#8]).mem.read? 0 = some 0xE1#8 ∧
    (running 1 0 [0xE1#8]).mem.size < 0 + 2 := ⟨by decide, by decide, ⟨rfl, rfl⟩, rfl, by decide⟩
theorem witness_JezJumpsWhenFIsZero :
    State.reset.x8.f = 0 ∧ ({ State.reset with x8.f := 0x01 } : State).x8.f ≠ 0 ∧
    Fetches (running 4 0 [0x21#8]) ∧ (running 4 0 [0x21#8]).mem.read? 0 = some 0x21#8 ∧
    (running 4 0 [0x21#8]).mem.size < 0 + 5 := ⟨rfl, by decide, ⟨rfl, rfl⟩, rfl, by decide⟩
theorem witness_JnzJumpsWhenFIsNotZero :
    State.reset.x8.f = 0 ∧ ({ State.reset with x8.f := 0x01 } : State).x8.f ≠ 0 ∧
    Fetches (running 4 0 [0x22#8]) ∧ (running 4 0 [0x22#8]).mem.read? 0 = some 0x22#8 ∧
    (running 4 0 [0x22#8]).mem.size < 0 + 5 := ⟨rfl, by decide, ⟨rfl, rfl⟩, rfl, by decide⟩
theorem witness_HaltEndsTheRun : (running 1 0 [0x01#8]).hostMoves = [] := rfl

/-- A form that stores, one that stores nothing, and one that faults. -/
theorem witness_FrameOfEveryInstruction :
    let s : State := { running 16 0 [] with x8.c := 2 }
    s.mem.wf = true ∧ storeAddress (.mv .ind (.reg .a)) s = some 2 ∧ storeAddress (.mvi .ind 7#8) s = some 2 ∧
      storeAddress .add s = none ∧ storeAddress (.mv (.reg .a) .ind) s = none ∧
      dest8 .cmp ≠ some .a ∧ dest32 (.aptr 1#8) ≠ some .la := by decide
theorem witness_FrameOfEveryInstruction_next :
    (∃ t, exec (.mv .ind (.reg .a)) (running 16 0 []) = .next t ∧ t.status = .running) ∧
    (∃ t, exec (.mv .ind (.reg .a)) (running 0 0 []) = .next t ∧ t.status ≠ .running) :=
  ⟨⟨_, rfl, rfl⟩, ⟨_, rfl, nofun⟩⟩
theorem witness_PcChangesOnlyAsListed :
    ∃ t, exec (.jez 0x10#32) (running 8 0 []) = .next t ∧ t.x32.pc = 0x10#32 := ⟨_, rfl, rfl⟩
theorem witness_RegisterFilesDoNotMix :
    (∀ target, Instr.add ≠ .jez target ∧ Instr.add ≠ .jnz target) ∧ (∀ dst, Instr.add ≠ .mv dst .ind) ∧
    (running 4 0 []).x32 = ({ running 4 0 [] with x8.a := 1 } : State).x32 ∧
    (running 4 0 []).x8 = ({ running 4 0 [] with x32.la := 1 } : State).x8 ∧
    (∃ t, exec .add (running 4 0 []) = .next t ∧ t.icount = (running 4 0 []).icount + 1) ∧
    (∃ t, exec .add { running 4 0 [] with x8.a := 1 } = .next t ∧ t.icount = (running 4 0 []).icount + 1) ∧
    (∃ t, exec .add { running 4 0 [] with x32.la := 1 } = .next t ∧ t.icount = (running 4 0 []).icount + 1) :=
  ⟨fun _ => ⟨nofun, nofun⟩, fun _ => nofun, rfl, rfl, ⟨_, rfl, rfl⟩, ⟨_, rfl, rfl⟩, ⟨_, rfl, rfl⟩⟩

theorem witness_StoreThenLoadGivesTheByte :
    let s : State := { running 16 0 [] with x8.c := 0x0F }
    s.mem.wf = true ∧ effectiveAddress s + 1 = s.mem.size := by decide
/-- V-MV-12: the store is to the byte the next fetch reads; and V-MVI-2's store by MVI. -/
theorem witness_StoreIsSeenByTheNextFetch :
    let s : State := { running 16 0 [0x79#8] with x8.a := 1, x8.c := 1 }
    s.mem.wf = true ∧ effectiveAddress s < s.mem.size ∧
      (∃ t, exec (.mv .ind (.reg .a)) s = .next t ∧ t.x32.pc.toNat + 0 = effectiveAddress s) ∧
      (∃ t, exec (.mvi .ind 0x01#8) { s with x8.c := 6 } = .next t ∧
        t.x32.pc.toNat + 4 = effectiveAddress { s with x8.c := 6 }) :=
  ⟨by decide, by decide, ⟨_, rfl, by decide⟩, ⟨_, rfl, by decide⟩⟩
theorem witness_OutputIsAppendOnly :
    (running 2 0 [0x02#8]).status = .running ∧ (∃ t, step (running 2 0 [0x02#8]) = .next t ∧ t.outseq = [0#8]) ∧
    ∃ t, exec .out (running 2 0 [0x02#8]) = .next t := ⟨rfl, ⟨_, rfl, rfl⟩, _, rfl⟩
theorem witness_MemoryChangesOnlyAtPtrPlusC :
    (running 16 0 [0x78#8, 0xAA#8]).mem.wf = true ∧
    ∃ t, step { running 16 0 [0x78#8, 0xAA#8] with x8.c := 5 } = .next t ∧ t.mem.read? 5 = some 0xAA#8 :=
  ⟨by decide, _, rfl, by decide⟩

theorem witness_EveryStepKeepsTheInvariant : Inv State.reset ∧ ∃ t, step State.reset = .next t :=
  ⟨⟨rfl, fun _ => ⟨rfl, rfl, rfl, rfl, rfl, rfl, rfl⟩, nofun, Nat.le_refl 0, nofun, nofun⟩, _, rfl⟩
/-- A state of a run that meets the invariant, and its step. -/
theorem witness_EveryStepKeepsTheInvariant_running :
    Inv (running 2 0 [0x02#8]) ∧ ∃ t, step (running 2 0 [0x02#8]) = .next t ∧ t.outseq = [0#8] :=
  ⟨⟨by decide, nofun, fun _ h => by cases h; decide, Nat.le_refl 0, nofun, nofun⟩, _, rfl, rfl⟩
theorem witness_EveryTransactionKeepsTheInvariant :
    Inv State.reset ∧ ∃ t, transact (.loadImage [0x01#8]) State.reset = .next t :=
  ⟨witness_EveryStepKeepsTheInvariant.1, _, rfl⟩
/-- The bound not yet reached, reached, and reached by the HALT. -/
theorem witness_MaxInstrEndsTheRun :
    let s : State := { running 1 0 [0x01#8] with watchdog := .maxInstr 1 }
    s.status = .running ∧ s.watchdog = .maxInstr (s.icount + 1) ∧ s.icount ≤ 1 ∧ s.hostMoves = [] ∧
      s.mem.read? s.x32.pc.toNat = some 0x01#8 ∧
      ({ s with icount := 1 } : State).watchdog = .maxInstr ({ s with icount := 1 } : State).icount := by decide
theorem witness_WallClockEndsTheRun :
    let s : State := { running 1 0 [0x01#8] with watchdog := .wallClock [false] }
    s.status = .running ∧ s.watchdog = .wallClock [false] ∧ s.hostMoves = [] := by decide
theorem witness_WallClockEndsTheRun_default :
    let s : State := { running 1 0 [0x01#8] with watchdog := .unset }
    s.status = .running ∧ s.watchdog = .unset ∧ s.hostMoves = [] := by decide
/-- A run under each of the three watchdogs, the clock's samples used up among them. -/
theorem witness_EveryRunEnds :
    (running 1 0 [0x01#8]).status = .running ∧
    ({ running 1 0 [0x01#8] with watchdog := .unset } : State).status = .running ∧
    ({ running 1 0 [0x01#8] with watchdog := .wallClock [] } : State).status = .running := by decide
/-- One program (OUT, HALT): halted with two iterations allowed by the clock, timed out with one instruction allowed. -/
theorem witness_WatchdogOnlyCutsARunShort :
    let s := running 2 0 [0x02#8, 0x01#8]
    s.status = .running ∧ s.hostMoves = [] ∧
      (∃ t, Host.Core.run Sys2Proof.core 2 { s with watchdog := .wallClock [false, false] } = .next t ∧
        (show State from t).status = .halted) ∧
      (∃ u, Host.Core.run Sys2Proof.core 2 { s with watchdog := .maxInstr 1 } = .next u ∧
        (show State from u).status = .timedOut) :=
  ⟨rfl, rfl, ⟨_, rfl, rfl⟩, ⟨_, rfl, rfl⟩⟩
theorem witness_HaltedOutputIsUnique :
    let s := running 2 0 [0x02#8, 0x01#8]
    s.status = .running ∧ s.hostMoves = [] ∧ HaltsWith { s with watchdog := .wallClock [false, false] } [0#8] ∧
      HaltsWith { s with watchdog := .maxInstr 2 } [0#8] :=
  ⟨rfl, rfl, ⟨2, _, rfl, rfl, rfl⟩, ⟨2, _, rfl, rfl, rfl⟩⟩

end Sys2Proof.Tests
end

section
/-! PROOFS. What the fetch answers, what every completed instruction leaves, and what a step of a run can do, each said
once; then the statements of the family of the state. -/

namespace Sys2Proof

/-! ## The decoder -/

/-- An instruction is one to five bytes long (R80). -/
theorem Mnemonic.length_bounds (mn : Mnemonic) : 1 ≤ mn.length ∧ mn.length ≤ 5 := by
  cases mn <;> decide

/-- HALT has one opcode byte (R85). -/
theorem mnemonicOf_eq_halt : ∀ b : Byte, mnemonicOf b = some .halt ↔ b = 0x01#8 := by decide

theorem decode_halt (rest : List Byte) : decode (0x01#8 :: rest) = .ok (.halt, rest) := rfl

end Sys2Proof

namespace Sys2Proof.Machine

/-! ## The fetch -/

theorem fetchWindow_length (s : State) : (fetchWindow s).length = min 5 (s.mem.size - s.x32.pc.toNat) :=
  bytesFrom_length s.mem 5 s.x32.pc.toNat

/-- Everything the fetch can answer, by the byte at `pc` (R115 to R117, R201). -/
theorem fetch_cases (s : State) :
    (s.mem.size ≤ s.x32.pc.toNat ∧ fetch s = .error (.fetchAddress s.x32.pc.toNat)) ∨
      ∃ b, s.mem.read? s.x32.pc.toNat = some b ∧
        ((decodeByte b = none ∧ fetch s = .error (.opcodeByte b)) ∨
          (∃ mn len, decodeByte b = some (mn, len) ∧ s.mem.size < s.x32.pc.toNat + len ∧
            fetch s = .error (.extentAddress (s.x32.pc.toNat + len - 1))) ∨
          (∃ i, decodeByte b = some (i.mnemonic, i.length) ∧ s.x32.pc.toNat + i.length ≤ s.mem.size ∧
            fetch s = .ok i)) := by
  have hlen := fetchWindow_length s
  rcases bytesFrom_succ s.mem 4 s.x32.pc.toNat with ⟨hout, hw⟩ | ⟨b, hb, hw⟩
  · exact .inl ⟨hout, by simp only [fetch, fetchWindow, hw, decode, decodeWith]⟩
  · have hin := Memory.lt_size_of_read? hb
    rw [fetchWindow, hw, List.length_cons] at hlen
    refine .inr ⟨b, hb, ?_⟩
    rcases decode_cons b (bytesFrom s.mem 4 (s.x32.pc.toNat + 1)) with
      ⟨hd, he⟩ | ⟨mn, len, hd, hl, he⟩ | ⟨mn, len, hd, hl, he⟩
    · exact .inl ⟨hd, by simp only [fetch, fetchWindow, hw, he]⟩
    · obtain ⟨-, rfl⟩ := decodeByte_eq_some.1 hd
      have := Mnemonic.length_bounds mn
      exact .inr (.inl ⟨mn, _, hd, by omega, by simp only [fetch, fetchWindow, hw, he]⟩)
    · obtain ⟨-, rfl⟩ := decodeByte_eq_some.1 hd
      refine .inr (.inr ⟨assemble Config.imm32Defect mn b (bytesFrom s.mem 4 (s.x32.pc.toNat + 1)), ?_, ?_, ?_⟩)
      · simpa only [Instr.length, assemble_mnemonic] using hd
      · simp only [Instr.length, assemble_mnemonic]; omega
      · simp only [fetch, fetchWindow, hw, he]

/-- The byte at `pc` of a fetched instruction. -/
theorem fetch_ok_head {s : State} {i : Instr} (h : fetch s = .ok i) :
    ∃ b, s.mem.read? s.x32.pc.toNat = some b ∧ decodeByte b = some (i.mnemonic, i.length) := by
  rcases fetch_cases s with ⟨-, he⟩ | ⟨b, hb, ⟨-, he⟩ | ⟨_, _, -, -, he⟩ | ⟨j, hd, -, he⟩⟩ <;> rw [he] at h <;> cases h
  exact ⟨b, hb, hd⟩

/-- What a fatal condition of the fetch records is true (R201, R202). -/
theorem fetch_error_record {s : State} {info : FaultInfo} (h : fetch s = .error info) :
    RecordTrue s s.x32.pc.toNat info := by
  rcases fetch_cases s with ⟨hout, he⟩ | ⟨b, hb, ⟨hd, he⟩ | ⟨mn, len, hd, hl, he⟩ | ⟨j, -, -, he⟩⟩ <;>
    rw [he] at h <;> cases h
  · exact ⟨rfl, hout⟩
  · exact ⟨hb, hd⟩
  · obtain ⟨-, rfl⟩ := decodeByte_eq_some.1 hd
    have := Mnemonic.length_bounds mn
    exact ⟨b, mn, _, hb, hd, by omega, by omega⟩

/-- HALT is fetched exactly where the byte 0x01 lies (R182). -/
theorem fetch_eq_halt {s : State} : fetch s = .ok .halt ↔ s.mem.read? s.x32.pc.toNat = some 0x01#8 := by
  constructor
  · intro h
    obtain ⟨b, hb, hd⟩ := fetch_ok_head h
    rwa [(mnemonicOf_eq_halt b).1 (decodeByte_eq_some.1 hd).1] at hb
  · intro h
    rcases bytesFrom_succ s.mem 4 s.x32.pc.toNat with ⟨hout, -⟩ | ⟨b, hb, hw⟩
    · rw [Memory.read?_eq_none.2 hout] at h; cases h
    · obtain rfl : 0x01#8 = b := Option.some.inj (h.symm.trans hb)
      exact fetch_of_decode (by rw [fetchWindow, hw, decode_halt])

/-! ## A completed instruction -/

/-- What an instruction that completes leaves behind, whatever value it computes: `t` is the state after `i` from `s`. A
field is shown by its default unless the instruction's write is to what it speaks of. -/
structure Completed (i : Instr) (s t : State) : Prop where
  /-- it counts (R120) -/
  icount : t.icount = s.icount + 1 := by rfl
  /-- HALT ends the run, and nothing else does (R182) -/
  status : (i ≠ .halt ∧ t.status = s.status) ∨ (i = .halt ∧ t.status = .halted)
  /-- the 8-bit registers but the destination (R21) -/
  x8 : ∀ r, dest8 i ≠ some r → t.x8.get r = s.x8.get r := by exact fun _ _ => rfl
  /-- the 32-bit registers but the destination and `pc` (R24) -/
  x32 : ∀ r, r ≠ .pc → dest32 i ≠ some r → t.x32.get r = s.x32.get r := by exact fun r hr _ => by simp [hr]
  /-- the advance, where the instruction does not write `pc` (R118) -/
  pc : dest32 i ≠ some .pc → t.x32.pc = s.x32.pc + BitVec.ofNat 32 i.length := by exact fun _ => rfl
  /-- the memory, but for one byte stored through `(ptr+c)` (R59) -/
  mem : t.mem = s.mem ∨
    ∃ v, storeAddress i s = some (effectiveAddress s) ∧ t.mem = s.mem.write (effectiveAddress s) v := by
      exact .inl rfl
  /-- OUT appends one byte, and nothing else does (R191) -/
  outseq : t.outseq = s.outseq ∨ (i = .out ∧ t.outseq = s.outseq ++ [s.x8.a]) := by exact .inl rfl
  /-- the host's inputs -/
  inputs : t.watchdog = s.watchdog ∧ t.resets = s.resets ∧ t.hostMoves = s.hostMoves := by exact ⟨rfl, rfl, rfl⟩

theorem completed_set8 {i : Instr} {r : Reg8} (h : dest8 i = some r) (v : Byte) (s : State) :
    Completed i s ((s.advance i.length).set8 r v).tick where
  status := .inl ⟨(by rintro rfl; cases h), rfl⟩
  x8 q hq := by
    have hqr : q ≠ r := by rintro rfl; exact hq h
    simp [hqr]

theorem completed_set32 {i : Instr} {r : Reg32} (h : dest32 i = some r) (v : Word) (s : State) :
    Completed i s ((s.advance i.length).set32 r v).tick where
  status := .inl ⟨(by rintro rfl; cases h), rfl⟩
  x32 q hpc hq := by
    have hqr : q ≠ r := by rintro rfl; exact hq h
    simp [hqr, hpc]
  pc hq := by
    have hpr : Reg32.pc ≠ r := by rintro rfl; exact hq h
    simp [← Regs32.get_pc, hpr]

theorem completed_store {i : Instr} {s : State} (h : storeAddress i s = some (effectiveAddress s)) (v : Byte) :
    Completed i s ({ s.advance i.length with mem := s.mem.write (effectiveAddress s) v } : State).tick where
  status := .inl ⟨(by rintro rfl; cases h), rfl⟩
  mem := .inr ⟨v, h, rfl⟩

theorem completed_advance {i : Instr} (h : i ≠ .halt) (s : State) : Completed i s (s.advance i.length).tick where
  status := .inl ⟨h, rfl⟩

theorem completed_halt (s : State) :
    Completed .halt s ((s.advance Instr.halt.length).setStatus .halted).tick where
  status := .inr ⟨rfl, rfl⟩

theorem completed_out (s : State) : Completed .out s ((s.advance Instr.out.length).output s.x8.a).tick where
  status := .inl ⟨by decide, rfl⟩
  outseq := .inr ⟨rfl, rfl⟩

/-- What makes the execution of `i` from `s` raise `info`: an invalid selector, an access at `ptr + c` outside the memory,
a pointer sum that does not fit (R202). -/
def RaiseCause (i : Instr) (s : State) (info : FaultInfo) : Prop :=
  info = .selector ∧ i.selectorsValid = false ∨
    info = .dataAddress (effectiveAddress s) ∧ s.mem.size ≤ effectiveAddress s ∨
    info = .ptrOverflow ∧ ∃ imm8, i = .aptr imm8 ∧ 2 ^ 32 ≤ s.x32.ptr.toNat + imm8.toNat

/-- `exec` raises, for a cause that is there, or completes. -/
theorem exec_raises_or_completes {i : Instr} {s t : State} (h : exec i s = .next t) :
    (∃ info, t = s.raise info ∧ RaiseCause i s info) ∨ Completed i s t := by
  rcases exec_cases h with hraise | ⟨r, v, hd, rfl⟩ | ⟨r, v, hd, rfl⟩ | ⟨v, ha, -, rfl⟩ | ⟨⟨target, hj⟩, rfl⟩ |
    ⟨rfl, rfl⟩ | ⟨rfl, rfl⟩
  · exact .inl hraise
  · exact .inr (completed_set8 hd v s)
  · exact .inr (completed_set32 hd v s)
  · exact .inr (completed_store ha v)
  · exact .inr (completed_advance (by rcases hj with rfl | rfl <;> simp) s)
  · exact .inr (completed_halt s)
  · exact .inr (completed_out s)

/-- A fatal condition is no completion (R207). -/
theorem not_completed_raise {i : Instr} (s : State) (info : FaultInfo) : ¬ Completed i s (s.raise info) :=
  fun h => absurd h.icount (Nat.ne_of_lt (Nat.lt_succ_self s.icount))

/-- An instruction that counts has completed: a fatal condition leaves `icount` alone. -/
theorem exec_completed {i : Instr} {s t : State} (h : exec i s = .next t) (hc : t.icount = s.icount + 1) :
    Completed i s t := by
  rcases exec_raises_or_completes h with ⟨info, rfl, -⟩ | hdone
  · rw [State.raise_icount] at hc; omega
  · exact hdone

section
variable {i : Instr} {s t : State}

/-- An instruction without an 8-bit destination leaves the 8-bit file alone. -/
theorem Completed.x8_eq (h : Completed i s t) (hd : dest8 i = none) : t.x8 = s.x8 :=
  Regs8.ext_get fun r => h.x8 r (by simp [hd])

/-- An instruction without a 32-bit destination leaves the 32-bit file alone but for the advance. -/
theorem Completed.x32_eq (h : Completed i s t) (hd : dest32 i = none) :
    t.x32 = s.x32.set .pc (s.x32.pc + BitVec.ofNat 32 i.length) := by
  refine Regs32.ext_get fun r => ?_
  by_cases hr : r = .pc
  · subst hr; simpa using h.pc (by simp [hd])
  · simpa [hr] using h.x32 r hr (by simp [hd])

theorem Completed.mem_size (h : Completed i s t) : t.mem.size = s.mem.size := by
  rcases h.mem with hm | ⟨v, -, hm⟩ <;> rw [hm]
  exact Memory.write_size ..

theorem Completed.mem_wf (h : Completed i s t) (hw : s.mem.wf = true) : t.mem.wf = true := by
  rcases h.mem with hm | ⟨v, -, hm⟩ <;> rw [hm]
  · exact hw
  · exact Memory.write_wf hw ..

/-- Only the byte at `ptr + c` can change (R59). -/
theorem Completed.read?_eq (h : Completed i s t) (hw : s.mem.wf = true) {a : Nat} (ha : a ≠ effectiveAddress s) :
    t.mem.read? a = s.mem.read? a := by
  rcases h.mem with hm | ⟨v, -, hm⟩ <;> rw [hm]
  rw [Memory.read?_write hw]; simp [ha]

/-- Nothing is stored by an instruction without a destination `(ptr+c)`. -/
theorem Completed.mem_eq (h : Completed i s t) (ha : storeAddress i s = none) : t.mem = s.mem := by
  rcases h.mem with hm | ⟨v, hs, -⟩
  · exact hm
  · rw [ha] at hs; cases hs

end

theorem storeAddress_eq_some {i : Instr} {s : State} {a : Nat} (h : storeAddress i s = some a) :
    a = effectiveAddress s := by
  cases i <;> simp only [storeAddress, reduceCtorEq, Option.ite_none_right_eq_some, Option.some.injEq] at h
  · exact h.2.symm
  · exact h.2.symm

/-! ## A step of a run -/

/-- A record speaks of memory, `c` and `ptr` only. -/
theorem recordTrue_congr {s t : State} (h8 : t.x8 = s.x8) (h32 : t.x32 = s.x32) (hm : t.mem = s.mem) {ia : Nat}
    {info : FaultInfo} (h : RecordTrue s ia info) : RecordTrue t ia info := by
  cases info <;> simpa only [RecordTrue, effectiveAddress, h8, h32, hm] using h

/-- What a fatal condition of the instruction fetched at `pc` records is true (R202). -/
theorem exec_raise_record {i : Instr} {s : State} {info : FaultInfo} (hf : fetch s = .ok i)
    (h : RaiseCause i s info) :
    RecordTrue s s.x32.pc.toNat info := by
  obtain ⟨rest, hd⟩ := fetch_ok hf
  rcases h with ⟨rfl, hv⟩ | ⟨rfl, hs⟩ | ⟨rfl, imm8, rfl, hs⟩
  · exact ⟨i, rest, hd, hv⟩
  · exact ⟨rfl, hs⟩
  · exact ⟨imm8, rest, hd, hs⟩

/-- Everything a step of a run can do: time out, take a fatal condition whose record is true, or complete the fetched
instruction (R112). -/
theorem step_running_cases {s t : State} (hs : s.status = .running) (h : step s = .next t) :
    (watchdogFires s = true ∧ t = (takeSample s).setStatus .timedOut) ∨
      (∃ info, RecordTrue s s.x32.pc.toNat info ∧ t = (takeSample s).raise info) ∨
      (watchdogFires s = false ∧ ∃ i, fetch s = .ok i ∧ Completed i (takeSample s) t) := by
  rw [step_running hs] at h
  rcases iteration_cases h with htimeout | ⟨-, info, hf, rfl⟩ | ⟨hw, i, hf, he⟩
  · exact .inl htimeout
  · exact .inr (.inl ⟨info, fetch_error_record hf, rfl⟩)
  · rcases exec_raises_or_completes he with ⟨info, rfl, hcause⟩ | hdone
    · have hrec : RecordTrue (takeSample s) (takeSample s).x32.pc.toNat info :=
        exec_raise_record (by rwa [fetch_takeSample]) hcause
      rw [takeSample_x32] at hrec
      exact .inr (.inl ⟨info, recordTrue_congr (takeSample_x8 s).symm (takeSample_x32 s).symm
        (takeSample_mem s).symm hrec, rfl⟩)
    · exact .inr (.inr ⟨hw, i, hf, hdone⟩)

/-- The step of a run in which HALT is fetched (R182). -/
theorem step_halt {s t : State} (hs : s.status = .running) (hw : watchdogFires s = false) (hf : fetch s = .ok .halt)
    (h : step s = .next t) : t.status = .halted := by
  rw [step_running hs] at h
  rcases iteration_cases h with ⟨hfires, -⟩ | ⟨-, info, he, -⟩ | ⟨-, i, hi, he⟩
  · rw [hw] at hfires; cases hfires
  · rw [hf] at he; cases he
  · rw [hf] at hi; cases hi; cases he; rfl

/-! ## The invariant -/

/-- A count reading stays the same when its sample is taken (log 8). -/
theorem takeSample_maxInstr {s : State} {n : Nat} (h : (takeSample s).watchdog = .maxInstr n) :
    s.watchdog = .maxInstr n := by
  cases hs : s.watchdog with
  | unset => simp [takeSample, hs] at h
  | maxInstr m => simpa [takeSample, hs] using h
  | wallClock samples => rw [takeSample_wallClock hs] at h; cases h

/-- In IDLE, with the reset values, only the memory's form is left to show. -/
theorem inv_of_idle {s : State} (hm : s.mem.wf = true) (hs : s.status = .idle)
    (hreset : s.x8 = State.reset.x8 ∧ s.x32.la = 0 ∧ s.x32.lb = 0 ∧ s.x32.lc = 0 ∧ s.x32.ld = 0 ∧ s.outseq = [] ∧
      s.icount = 0) : Inv s := by
  obtain ⟨-, -, -, -, -, ho, hc⟩ := id hreset
  exact {
    memory_wf := hm
    idle_reset := fun _ => hreset
    count_bound := fun n _ => by omega
    output_bound := by simp [ho]
    halted_at_halt := fun h => by rw [hs] at h; cases h
    record_true := fun _ _ _ h => by rw [hs] at h; cases h }

/-- While a run is in progress, and when it has timed out, the status demands nothing. -/
theorem inv_of_running_or_timedOut {s : State} (hs : s.status = .running ∨ s.status = .timedOut)
    (hm : s.mem.wf = true) (hc : ∀ n, s.watchdog = .maxInstr n → s.icount ≤ n) (ho : s.outseq.length ≤ s.icount) :
    Inv s where
  memory_wf := hm
  idle_reset h := by rcases hs with hs | hs <;> rw [hs] at h <;> cases h
  count_bound := hc
  output_bound := ho
  halted_at_halt h := by rcases hs with hs | hs <;> rw [hs] at h <;> cases h
  record_true _ _ _ h := by rcases hs with hs | hs <;> rw [hs] at h <;> cases h

/-- The invariant does not look at the host's pending moves. -/
theorem Inv.of_hostMoves {s : State} (h : Inv s) (moves : List HostMove) : Inv { s with hostMoves := moves } where
  memory_wf := h.memory_wf
  idle_reset := h.idle_reset
  count_bound := h.count_bound
  output_bound := h.output_bound
  halted_at_halt := h.halted_at_halt
  record_true kind ia info hs :=
    (h.record_true kind ia info hs).imp_right (recordTrue_congr (s := s) rfl rfl rfl)

/-- Every transaction of the host keeps the invariant (R124). -/
theorem transact_keeps_inv {m : HostMove} {s t : State} (hi : Inv s) (h : transact m s = .next t) : Inv t := by
  rcases transact_cases h with ⟨-, rfl⟩ | ⟨hs, ⟨image, -, hl, rfl⟩ | ⟨pcInit, ptrInit, -, rfl⟩ | ⟨w, -, rfl⟩ | ⟨-, rfl⟩⟩
  · exact inv_of_idle hi.memory_wf rfl ⟨rfl, rfl, rfl, rfl, rfl, rfl, rfl⟩
  · exact inv_of_idle (Memory.ofImage_wf hl) hs (hi.idle_reset hs)
  · exact inv_of_idle hi.memory_wf hs (hi.idle_reset hs)
  · exact inv_of_idle hi.memory_wf hs (hi.idle_reset hs)
  · exact inv_of_running_or_timedOut (.inl rfl) hi.memory_wf hi.count_bound hi.output_bound

/-- The host's turn keeps the invariant. -/
theorem hostTurn_keeps_inv {s t : State} (hi : Inv s) (h : hostTurn s = .next t) : Inv t := by
  rcases hostTurn_cases h with ⟨-, rfl⟩ | ⟨m, rest, -, ht⟩
  · exact hi
  · exact transact_keeps_inv (hi.of_hostMoves rest) ht

/-- A run that times out keeps the invariant (R114). -/
theorem inv_timedOut {s : State} (hi : Inv s) : Inv ((takeSample s).setStatus .timedOut) := by
  refine inv_of_running_or_timedOut (.inr rfl) ?_ ?_ ?_
  · simpa using hi.memory_wf
  · intro n hn
    simpa using hi.count_bound n (takeSample_maxInstr hn)
  · simpa using hi.output_bound

/-- A fatal condition with a true record keeps the invariant (R207). -/
theorem inv_raise {s : State} {info : FaultInfo} (hi : Inv s) (hrec : RecordTrue s s.x32.pc.toNat info) :
    Inv ((takeSample s).raise info) where
  memory_wf := by simpa using hi.memory_wf
  idle_reset h := by cases h
  count_bound n hn := by simpa using hi.count_bound n (takeSample_maxInstr hn)
  output_bound := by simpa using hi.output_bound
  halted_at_halt h := by cases h
  record_true kind ia info' h := by
    obtain ⟨rfl, rfl, rfl⟩ := Status.faulted.inj h
    exact ⟨rfl, recordTrue_congr (takeSample_x8 s) (takeSample_x32 s) (takeSample_mem s) (by simpa using hrec)⟩

/-- The HALT that ended the run lies just before `pc`: `pc` cannot have wrapped, because `MEMSIZE < 2^32` (R51, R182). -/
theorem halt_before_pc {s t : State} (hm : s.mem.wf = true) (hf : fetch s = .ok .halt)
    (h : Completed .halt (takeSample s) t) :
    ∃ ia, t.x32.pc.toNat = ia + 1 ∧ t.mem.read? ia = some 0x01#8 := by
  have hb := fetch_eq_halt.1 hf
  have hin := Memory.lt_size_of_read? hb
  have hsize := ((Memory.wf_iff _).1 hm).1
  have hpc : t.x32.pc = s.x32.pc + 1 := by
    rw [h.pc (by decide), takeSample_x32]; rfl
  refine ⟨s.x32.pc.toNat, ?_, ?_⟩
  · rw [hpc, BitVec.toNat_add_of_lt (by simp; omega)]; rfl
  · rw [h.mem_eq rfl, takeSample_mem, hb]

/-- A completed instruction keeps the invariant (R119, R120). -/
theorem inv_completed {i : Instr} {s t : State} (hi : Inv s) (hs : s.status = .running)
    (hw : watchdogFires s = false) (hf : fetch s = .ok i) (h : Completed i (takeSample s) t) : Inv t := by
  have hm : t.mem.wf = true := h.mem_wf (by simpa using hi.memory_wf)
  have hicount : t.icount = s.icount + 1 := by simpa using h.icount
  have hcount : ∀ n, t.watchdog = .maxInstr n → t.icount ≤ n := by
    intro n hn
    have hfires := watchdogFires_maxInstr (takeSample_maxInstr (h.inputs.1.symm.trans hn))
    rw [hw] at hfires
    simp at hfires
    omega
  have hout : t.outseq.length ≤ t.icount := by
    have := hi.output_bound
    rcases h.outseq with ho | ⟨-, ho⟩ <;> rw [ho, hicount] <;> simp <;> omega
  rcases h.status with ⟨-, ht⟩ | ⟨rfl, ht⟩
  · exact inv_of_running_or_timedOut (.inl (by rw [ht, takeSample_status, hs])) hm hcount hout
  · exact {
      memory_wf := hm
      idle_reset := fun hidle => by rw [ht] at hidle; cases hidle
      count_bound := hcount
      output_bound := hout
      halted_at_halt := fun _ => halt_before_pc hi.memory_wf hf h
      record_true := fun _ _ _ hfault => by rw [ht] at hfault; cases hfault }

/-- Settles O47: the host's turn, and the three ends of a step of a run, each keep the invariant. -/
theorem everyStepKeepsTheInvariant : Obligations.EveryStepKeepsTheInvariant := by
  intro s t hi h
  by_cases hs : s.status = .running
  · rcases step_running_cases hs h with ⟨-, rfl⟩ | ⟨info, hrec, rfl⟩ | ⟨hw, i, hf, hdone⟩
    · exact inv_timedOut hi
    · exact inv_raise hi hrec
    · exact inv_completed hi hs hw hf hdone
  · rw [step_not_running hs] at h
    exact hostTurn_keeps_inv hi h

/-- Settles O49. -/
theorem resetMeetsTheInvariant : Obligations.ResetMeetsTheInvariant :=
  inv_of_idle rfl rfl ⟨rfl, rfl, rfl, rfl, rfl, rfl, rfl⟩

/-! ## The status -/

/-- Settles O15: in a terminal status the host's turn is to do nothing or to reset, since every other move asks for IDLE. -/
theorem terminalStatusIsLeftByResetOnly : Obligations.TerminalStatusIsLeftByResetOnly := by
  intro s t hterm h
  have hidle : s.status ≠ .idle := by intro hs; rw [hs] at hterm; cases hterm
  have hrunning : s.status ≠ .running := by intro hs; rw [hs] at hterm; cases hterm
  rw [step_not_running hrunning] at h
  rcases hostTurn_cases h with hstay | ⟨m, rest, hm, ht⟩
  · exact .inl hstay
  · rcases transact_cases ht with ⟨rfl, rfl⟩ | ⟨hs, -⟩
    · exact .inr ⟨rest, hm, rfl, rfl⟩
    · exact absurd hs hidle

/-- Outside IDLE a move that asks for IDLE is refused (R124). -/
theorem inIdle_refused {s : State} (h : s.status ≠ .idle) (why : Refusal) (t : State) :
    inIdle s why t = .refused why := if_neg h

/-- Settles O13. -/
theorem hostMovesOutsideIdleAreRefused : Obligations.HostMovesOutsideIdleAreRefused := by
  intro s hs
  refine ⟨fun image hl => ?_, fun pcInit ptrInit => inIdle_refused hs _ _, fun w => inIdle_refused hs _ _⟩
  have hfits : image.length < Config.addressSpan := hl
  simp only [transact, hfits, if_true, inIdle_refused hs]

/-- Settles O25: of the three ends of a step of a run only the completed instruction counts, and only it leaves the run
RUNNING or HALTED. -/
theorem completedInstructionsAreCounted : Obligations.CompletedInstructionsAreCounted := by
  intro s t hs h
  rcases step_running_cases hs h with ⟨-, rfl⟩ | ⟨info, -, rfl⟩ | ⟨-, i, -, hdone⟩
  · simp
  · simp
  · have hicount := hdone.icount
    have hstatus := hdone.status
    simp only [takeSample_icount, takeSample_status, hs] at hicount hstatus
    exact ⟨fun _ => hicount, fun hn => by rcases hstatus with ⟨-, ht⟩ | ⟨-, ht⟩ <;> simp [ht] at hn⟩

/-- Settles O26: HALTED comes from a completed HALT only, and HALT is fetched exactly where the byte 0x01 lies. -/
theorem haltedExactlyByTheHaltByte : Obligations.HaltedExactlyByTheHaltByte := by
  intro s t hs h
  constructor
  · intro hhalted
    rcases step_running_cases hs h with ⟨-, rfl⟩ | ⟨info, -, rfl⟩ | ⟨hw, i, hf, hdone⟩
    · cases hhalted
    · cases hhalted
    · rcases hdone.status with ⟨-, ht⟩ | ⟨rfl, -⟩
      · rw [takeSample_status, hs, hhalted] at ht; cases ht
      · exact ⟨hw, fetch_eq_halt.1 hf⟩
  · rintro ⟨hw, hb⟩
    exact step_halt hs hw (fetch_eq_halt.2 hb) h

/-! ## Frames -/

/-- Settles O46: time out and fatal condition leave the memory alone; a completed instruction writes at `ptr + c` at most. -/
theorem memoryChangesOnlyAtPtrPlusC : Obligations.MemoryChangesOnlyAtPtrPlusC := by
  intro s t hs hwf h
  rcases step_running_cases hs h with ⟨-, rfl⟩ | ⟨info, -, rfl⟩ | ⟨-, i, -, hdone⟩
  · simp
  · simp
  · refine ⟨by simpa using hdone.mem_size, fun a ha => ?_⟩
    simpa using hdone.read?_eq (by simpa using hwf) (by simpa using ha)

/-- Settles O40: a fatal condition changes the status only, and a completed instruction what `Completed` lists. -/
theorem frameOfEveryInstruction : Obligations.FrameOfEveryInstruction := by
  intro i s t h
  rcases exec_raises_or_completes h with ⟨info, rfl, -⟩ | hdone
  · exact ⟨fun _ _ => rfl, fun _ _ _ => rfl, rfl, fun _ => rfl, fun _ _ _ _ _ => rfl, fun _ => rfl,
      fun _ => .inr ⟨info, rfl⟩, rfl, rfl, rfl⟩
  · refine ⟨hdone.x8, hdone.x32, hdone.mem_size, hdone.mem_eq, ?_, ?_, ?_, hdone.inputs⟩
    · intro a ha hwf b hb
      exact hdone.read?_eq hwf (storeAddress_eq_some ha ▸ hb)
    · intro hout
      exact hdone.outseq.resolve_right fun ho => hout ho.1
    · intro hhalt
      exact .inl (hdone.status.resolve_right fun hs => hhalt hs.1).2

/-! ## The two register files -/

/-- The 32-bit file after a completed instruction other than JEZ and JNZ: a function of the instruction and that file. -/
def x32After (i : Instr) (x : Regs32) : Regs32 :=
  let advanced := x.set .pc (x.pc + BitVec.ofNat 32 i.length)
  match i with
  | .mvi32 (.reg r) imm32 => advanced.set r imm32
  | .mv32 (.reg r) (.reg q) => advanced.set r (advanced.get q)
  | .aptr imm8 => advanced.set .ptr (BitVec.ofNat 32 (x.ptr.toNat + imm8.toNat))
  | _ => advanced

/-- The 8-bit file after a completed instruction other than a load from `(ptr+c)`: a function of the instruction and that
file. -/
def x8After (i : Instr) (x : Regs8) : Regs8 :=
  match i with
  | .mvi (.reg r) imm8 => x.set r imm8
  | .mv (.reg r) (.reg q) => x.set r (x.get q)
  | .cmp => x.set .f (compareByte x.a x.b)
  | .add => x.set .a (x.a + x.b)
  | .sub => x.set .a (x.a - x.b)
  | .xor => x.set .a (x.a ^^^ x.b)
  | _ => x

/-- The pointer file does not look at the byte file, but for the condition of a jump (R23). -/
theorem exec_x32 {i : Instr} {s t : State} (hjump : ∀ target, i ≠ .jez target ∧ i ≠ .jnz target)
    (h : exec i s = .next t) (hdone : Completed i s t) : t.x32 = x32After i s.x32 := by
  cases i with
  | mvi32 dst imm32 =>
    cases dst with
    | reg r => cases h; rfl
    | zero => exact hdone.x32_eq rfl
    | seven => exact hdone.x32_eq rfl
  | mv32 dst src =>
    cases dst with
    | zero => exact hdone.x32_eq rfl
    | seven => exact hdone.x32_eq rfl
    | reg r =>
      cases src with
      | reg q => cases h; rfl
      | zero => cases h; exact absurd hdone (not_completed_raise s .selector)
      | seven => cases h; exact absurd hdone (not_completed_raise s .selector)
  | aptr imm8 =>
    rw [exec_aptr] at h
    rcases attempt_cases h with ⟨u, hu, rfl⟩ | ⟨info, -, rfl⟩
    · simp only [addToPtr] at hu
      split at hu
      · cases hu
      · cases hu; rfl
    · exact absurd hdone (not_completed_raise s info)
  | jez target => exact absurd rfl (hjump target).1
  | jnz target => exact absurd rfl (hjump target).2
  | mvi | mv | halt | out | cmp | add | sub | xor => exact hdone.x32_eq rfl

/-- The byte file does not look at the pointer file, but for a load from `(ptr+c)` (R23). -/
theorem exec_x8 {i : Instr} {s t : State} (hload : ∀ dst, i ≠ .mv dst .ind)
    (h : exec i s = .next t) (hdone : Completed i s t) : t.x8 = x8After i s.x8 := by
  cases i with
  | mvi dst imm8 =>
    cases dst with
    | reg r => cases h; rfl
    | zero => exact hdone.x8_eq rfl
    | ind => exact hdone.x8_eq rfl
  | mv dst src =>
    cases dst with
    | zero => exact hdone.x8_eq rfl
    | ind => exact hdone.x8_eq rfl
    | reg r =>
      cases src with
      | reg q => cases h; rfl
      | zero => cases h; exact absurd hdone (not_completed_raise s .selector)
      | ind => exact absurd rfl (hload (.reg r))
  | cmp | add | sub | xor => cases h; rfl
  | mvi32 | mv32 | halt | out | jez | jnz | aptr => exact hdone.x8_eq rfl

/-- Settles O42: each file after the instruction is a function of the instruction and the same file before it. -/
theorem registerFilesDoNotMix : Obligations.RegisterFilesDoNotMix := by
  refine ⟨?_, ?_⟩
  · intro i s t s' t' hjump heq h h' hc hc'
    rw [exec_x32 hjump h (exec_completed h hc), exec_x32 hjump h' (exec_completed h' hc'), heq]
  · intro i s t s' t' hload heq h h' hc hc'
    rw [exec_x8 hload h (exec_completed h hc), exec_x8 hload h' (exec_completed h' hc'), heq]

end Sys2Proof.Machine
end

section
/-! PROOFS. The bytes of a fetched instruction, its imm32 among them, and a store through `(ptr+c)` that succeeds; then
the statements of the family of the memory. -/

namespace Sys2Proof

/-! ## The imm32 among the bytes of an instruction -/

/-- The instructions with a 32-bit immediate are five bytes long, and the immediate is the reader's value (R81, R88). -/
theorem assemble_imm32 {defect : Bool} {mn : Mnemonic} {b : Byte} {rest : List Byte} {v : Word}
    (h : assemble defect mn b rest = .jez v ∨ assemble defect mn b rest = .jnz v ∨
      ∃ dst, assemble defect mn b rest = .mvi32 dst v) :
    mn.length = 5 ∧ v = imm32Of defect rest := by
  have hmn {i : Instr} (he : assemble defect mn b rest = i) : mn = i.mnemonic := by
    rw [← he, assemble_mnemonic]
  rcases h with h | h | ⟨dst, h⟩
  · obtain rfl : mn = .jez := hmn h
    exact ⟨rfl, (Instr.jez.inj h).symm⟩
  · obtain rfl : mn = .jnz := hmn h
    exact ⟨rfl, (Instr.jnz.inj h).symm⟩
  · obtain rfl : mn = .mvi32 := hmn h
    exact ⟨rfl, (Instr.mvi32.inj h).2.symm⟩

/-- Two words of four bytes are equal only if their third bytes are. -/
theorem leWord_third_inj {b0 b1 b2 b3 c0 c1 c2 c3 : Byte} (h : leWord b0 b1 b2 b3 = leWord c0 c1 c2 c3) : b2 = c2 := by
  obtain ⟨-, -, hb, -⟩ := wordByte_leWord b0 b1 b2 b3
  obtain ⟨-, -, hc, -⟩ := wordByte_leWord c0 c1 c2 c3
  rw [← hb, h, hc]

end Sys2Proof

namespace Sys2Proof.Machine

/-! ## The bytes in memory -/

/-- There is a byte at every address below `MEMSIZE` (R51). -/
theorem Memory.exists_read? {m : Memory} {a : Nat} (h : a < m.size) : ∃ b, m.read? a = some b :=
  Option.isSome_iff_exists.1 (by simpa [Memory.read?_isSome] using h)

/-- A byte that exists is the first of those from its address on. -/
theorem bytesFrom_of_read? {m : Memory} {a : Nat} {b : Byte} (h : m.read? a = some b) (n : Nat) :
    bytesFrom m (n + 1) a = b :: bytesFrom m n (a + 1) := by
  simp only [bytesFrom, h]

/-- A fetched instruction is assembled from its opcode byte at `pc` and the bytes after it, and all its bytes exist
(R116, R117). -/
theorem fetch_ok_assemble {s : State} {i : Instr} (h : fetch s = .ok i) :
    ∃ mn b, s.mem.read? s.x32.pc.toNat = some b ∧ s.x32.pc.toNat + mn.length ≤ s.mem.size ∧
      i = assemble Config.imm32Defect mn b (bytesFrom s.mem 4 (s.x32.pc.toNat + 1)) := by
  obtain ⟨rest, hdecode⟩ := fetch_ok h
  have hwindow := fetchWindow_length s
  obtain ⟨b, hb, -⟩ := fetch_ok_head h
  rw [fetchWindow, bytesFrom_of_read? hb] at hdecode hwindow
  rw [List.length_cons] at hwindow
  rcases decode_cons b (bytesFrom s.mem 4 (s.x32.pc.toNat + 1)) with
    ⟨-, he⟩ | ⟨mn, len, -, -, he⟩ | ⟨mn, len, hd, hl, he⟩ <;> rw [he] at hdecode <;> cases hdecode
  obtain ⟨-, rfl⟩ := decodeByte_eq_some.1 hd
  have hbounds := Mnemonic.length_bounds mn
  exact ⟨mn, b, hb, by omega, rfl⟩

/-- Where four bytes exist, the imm32 reader with the switch off and `MemRead(a, 4)` both give their little-endian value
(R53, R55). -/
theorem imm32Of_bytesFrom {s : State} {a : Nat} {b1 b2 b3 b4 : Byte} (h1 : s.mem.read? a = some b1)
    (h2 : s.mem.read? (a + 1) = some b2) (h3 : s.mem.read? (a + 2) = some b3) (h4 : s.mem.read? (a + 3) = some b4) :
    imm32Of Config.imm32Defect (bytesFrom s.mem 4 a) = leWord b1 b2 b3 b4 ∧
      memRead32 a s = .ok (leWord b1 b2 b3 b4) := by
  constructor
  · rw [bytesFrom_of_read? h1, bytesFrom_of_read? h2, bytesFrom_of_read? h3, bytesFrom_of_read? h4]
    rfl
  · simp only [memRead32, h1, h2, h3, h4]

/-- Settles O7: a fetched instruction with an imm32 is five bytes long, so the four bytes the reader takes exist. -/
theorem imm32IsLittleEndianFromMemory : Obligations.Imm32IsLittleEndianFromMemory := by
  refine ⟨fun s i v hfetch hi => ?_, rfl⟩
  obtain ⟨mn, b, -, hin, rfl⟩ := fetch_ok_assemble hfetch
  obtain ⟨hlen, rfl⟩ := assemble_imm32 hi
  obtain ⟨b1, h1⟩ := Memory.exists_read? (m := s.mem) (a := s.x32.pc.toNat + 1) (by omega)
  obtain ⟨b2, h2⟩ := Memory.exists_read? (m := s.mem) (a := s.x32.pc.toNat + 2) (by omega)
  obtain ⟨b3, h3⟩ := Memory.exists_read? (m := s.mem) (a := s.x32.pc.toNat + 3) (by omega)
  obtain ⟨b4, h4⟩ := Memory.exists_read? (m := s.mem) (a := s.x32.pc.toNat + 4) (by omega)
  obtain ⟨himm, hread⟩ := imm32Of_bytesFrom h1 h2 h3 h4
  rw [himm]
  exact ⟨b1, b2, b3, b4, h1, h2, h3, h4, leWord_toNat b1 b2 b3 b4, hread⟩

/-! ## A store through `(ptr+c)` -/

/-- A write through `(ptr+c)` inside the memory (R54, R140). -/
theorem write8_ind {s : State} (h : effectiveAddress s < s.mem.size) (v : Byte) :
    write8 .ind v s = .ok { s with mem := s.mem.write (effectiveAddress s) v } := if_pos h

/-- MV from a register to `(ptr+c)` inside the memory: the advance, the store, the count (R142). -/
theorem exec_mv_ind_reg {s : State} (h : effectiveAddress s < s.mem.size) (q : Reg8) :
    exec (.mv .ind (.reg q)) s =
      .next ({ s.advance 1 with mem := s.mem.write (effectiveAddress s) (s.x8.get q) } : State).tick := by
  rw [exec_mv]
  exact attempt_ok (write8_ind (s := s.advance 1) h (s.x8.get q))

/-- MVI to `(ptr+c)` inside the memory: the advance, the store, the count (R143). -/
theorem exec_mvi_ind {s : State} (h : effectiveAddress s < s.mem.size) (imm8 : Byte) :
    exec (.mvi .ind imm8) s =
      .next ({ s.advance 2 with mem := s.mem.write (effectiveAddress s) imm8 } : State).tick := by
  rw [exec_mvi]
  exact attempt_ok (write8_ind (s := s.advance 2) h imm8)

/-- The fetch window shows the current memory from `pc` on (R65). -/
theorem fetchWindow_getElem? (s : State) {k : Nat} (hk : k < 5) :
    (fetchWindow s)[k]? = s.mem.read? (s.x32.pc.toNat + k) :=
  bytesFrom_getElem? s.mem 5 s.x32.pc.toNat k hk

/-- Settles O44: either store leaves `v` at `ptr + c`, and the next window shows the memory so written. -/
theorem storeIsSeenByTheNextFetch : Obligations.StoreIsSeenByTheNextFetch := by
  intro i v s t hwf hi hin h k hk haddr
  have hmem : t.mem = s.mem.write (effectiveAddress s) v := by
    rcases hi with ⟨q, rfl, rfl⟩ | rfl
    · rw [exec_mv_ind_reg hin] at h; cases h; rfl
    · rw [exec_mvi_ind hin] at h; cases h; rfl
  rw [fetchWindow_getElem? t hk, haddr, hmem, Memory.read?_write hwf, if_pos ⟨rfl, hin⟩]

/-! ## The defective imm32 reader -/

/-- Settles O9: the readers differ in the third byte only, and a word determines its third byte. -/
theorem defectiveReaderDiffersExactlyOnUnequalBytes : Obligations.DefectiveReaderDiffersExactlyOnUnequalBytes := by
  refine ⟨rfl, fun b1 b2 b3 b4 => ⟨leWord_toNat b1 b2 b4 b4, not_congr ⟨fun h => ?_, fun h => ?_⟩⟩⟩
  · exact (leWord_third_inj (show leWord b1 b2 b4 b4 = leWord b1 b2 b3 b4 from h)).symm
  · subst h; rfl

end Sys2Proof.Machine
end

section
/-! PROOFS. The opcode byte of each mnemonic and the immediates among the bytes after it, taken apart and put together
again; then the statements of the family of the encoding. -/

namespace Sys2Proof

/-! ## The opcode byte of a move-family instruction -/

/-- The fields of a move-family opcode byte, read back (R82). -/
@[simp] theorem dstBits_moveByte {fam : Nat} (hfam : fam = 0x40 ∨ fam = 0x80) (d s : BitVec 3) :
    dstBits (moveByte fam d.toNat s.toNat) = d := by
  rcases hfam with rfl | rfl <;> revert d s <;> decide

@[simp] theorem srcBits_moveByte {fam : Nat} (hfam : fam = 0x40 ∨ fam = 0x80) (d s : BitVec 3) :
    srcBits (moveByte fam d.toNat s.toNat) = s := by
  rcases hfam with rfl | rfl <;> revert d s <;> decide

/-- The two top bits of a move-family opcode byte tell its family (R82). -/
theorem moveByte_topBits {fam : Nat} (hfam : fam = 0x40 ∨ fam = 0x80) (d s : BitVec 3) :
    moveByte fam d.toNat s.toNat &&& 0xC0#8 = BitVec.ofNat 8 fam := by
  rcases hfam with rfl | rfl <;> revert d s <;> decide

/-- A move-family byte is its two top bits and its two fields: no bit is left over (R82). -/
theorem moveByte_fields {fam : Nat} (hfam : fam = 0x40 ∨ fam = 0x80) {b : Byte}
    (h : b &&& 0xC0#8 = BitVec.ofNat 8 fam) : moveByte fam (dstBits b).toNat (srcBits b).toNat = b := by
  rcases hfam with rfl | rfl <;> revert b <;> decide

/-- The source field is the three low bits (R82). -/
theorem srcBits_eq_zero {b : Byte} : srcBits b = 0 ↔ b &&& 0x07#8 = 0 := by
  revert b; decide

/-! ## The mnemonic of an opcode byte -/

/-- R83 on the 8-bit family: the source field tells the immediate form. -/
theorem mnemonicOf_family8 {b : Byte} (h : b &&& 0xC0#8 = 0x40#8) :
    mnemonicOf b = some (if srcBits b = 0 then .mvi else .mv) := by
  rw [mnemonicOf, if_pos (.inl h), moveFamily, resolvedCode, h]
  split <;> rfl

/-- R83 on the 32-bit family: the source field tells the immediate form. -/
theorem mnemonicOf_family32 {b : Byte} (h : b &&& 0xC0#8 = 0x80#8) :
    mnemonicOf b = some (if srcBits b = 0 then .mvi32 else .mv32) := by
  rw [mnemonicOf, if_pos (.inr h), moveFamily, resolvedCode, h]
  split <;> rfl

/-- Every opcode byte the encoder builds for the 8-bit family has a mnemonic of it (R82, R84). -/
theorem mnemonicOf_moveByte8 (d s : BitVec 3) :
    mnemonicOf (moveByte 0x40 d.toNat s.toNat) = some (if s = 0 then .mvi else .mv) := by
  rw [mnemonicOf_family8 (moveByte_topBits (.inl rfl) d s), srcBits_moveByte (.inl rfl)]

/-- Every opcode byte the encoder builds for the 32-bit family has a mnemonic of it (R82, R84). -/
theorem mnemonicOf_moveByte32 (d s : BitVec 3) :
    mnemonicOf (moveByte 0x80 d.toNat s.toNat) = some (if s = 0 then .mvi32 else .mv32) := by
  rw [mnemonicOf_family32 (moveByte_topBits (.inr rfl) d s), srcBits_moveByte (.inr rfl)]

/-- Outside the move family the first step is the fixed table (R83). -/
theorem mnemonicOf_fixed {b : Byte} (h : b &&& 0xC0#8 = 0x00#8 ∨ b &&& 0xC0#8 = 0xC0#8) :
    mnemonicOf b = fixedOpcode b := by
  rcases h with h | h <;> rw [mnemonicOf, h] <;> rfl

/-- The rows of the fixed opcode table (R85). -/
def fixedTable : List (Byte × Mnemonic) :=
  [(0x01#8, .halt), (0x02#8, .out), (0x21#8, .jez), (0x22#8, .jnz), (0xC1#8, .cmp), (0xC2#8, .add), (0xC3#8, .sub),
    (0xC4#8, .xor), (0xE1#8, .aptr)]

/-- The fixed opcodes are the rows of the table, matched on all eight bits (R85). -/
theorem fixedOpcode_eq_some {b : Byte} {mn : Mnemonic} : fixedOpcode b = some mn ↔ (b, mn) ∈ fixedTable := by
  constructor
  · intro h
    unfold fixedOpcode at h
    split_ifs at h <;> cases h <;> subst b <;> decide
  · simp only [fixedTable, List.mem_cons, Prod.mk.injEq, List.not_mem_nil, or_false]
    rintro (⟨rfl, rfl⟩ | ⟨rfl, rfl⟩ | ⟨rfl, rfl⟩ | ⟨rfl, rfl⟩ | ⟨rfl, rfl⟩ | ⟨rfl, rfl⟩ | ⟨rfl, rfl⟩ | ⟨rfl, rfl⟩ |
      ⟨rfl, rfl⟩) <;> rfl

/-- Everything the first step of the decoding can answer: a move-family mnemonic by the two top bits and the source
field, or a row of the fixed table (R83). -/
theorem mnemonicOf_cases {b : Byte} {mn : Mnemonic} (h : mnemonicOf b = some mn) :
    (b &&& 0xC0#8 = 0x40#8 ∧ mn = if srcBits b = 0 then .mvi else .mv) ∨
      (b &&& 0xC0#8 = 0x80#8 ∧ mn = if srcBits b = 0 then .mvi32 else .mv32) ∨ (b, mn) ∈ fixedTable := by
  by_cases h8 : b &&& 0xC0#8 = 0x40#8
  · rw [mnemonicOf_family8 h8] at h
    exact .inl ⟨h8, (Option.some.inj h).symm⟩
  · by_cases h32 : b &&& 0xC0#8 = 0x80#8
    · rw [mnemonicOf_family32 h32] at h
      exact .inr (.inl ⟨h32, (Option.some.inj h).symm⟩)
    · rw [mnemonicOf, if_neg (not_or.2 ⟨h8, h32⟩)] at h
      exact .inr (.inr (fixedOpcode_eq_some.1 h))

/-- The length `decodeByte` answers is the mnemonic's (R83). -/
theorem decodeByte_of_mnemonicOf {b : Byte} {mn : Mnemonic} (h : mnemonicOf b = some mn) :
    decodeByte b = some (mn, mn.length) := decodeByte_eq_some.2 ⟨h, rfl⟩

/-- Where the first step answers a mnemonic and its bytes are there, the decoder assembles them. -/
theorem decode_of_mnemonicOf {b : Byte} {mn : Mnemonic} {rest : List Byte} (h : mnemonicOf b = some mn)
    (hlen : mn.length ≤ rest.length + 1) :
    decode (b :: rest) = .ok (assemble Config.imm32Defect mn b rest, rest.drop (mn.length - 1)) := by
  simp only [decode, decodeWith, decodeByte_of_mnemonicOf h, if_neg (Nat.not_lt.2 hlen)]

/-- Where the decoder answers an instruction, it has assembled it, and all its bytes are there. -/
theorem decode_eq_ok {bytes rest : List Byte} {i : Instr} (h : decode bytes = .ok (i, rest)) :
    ∃ b tail mn, bytes = b :: tail ∧ mnemonicOf b = some mn ∧ mn.length ≤ tail.length + 1 ∧
      i = assemble Config.imm32Defect mn b tail ∧ rest = tail.drop (mn.length - 1) := by
  cases bytes with
  | nil => cases h
  | cons b tail =>
    rcases decode_cons b tail with ⟨-, he⟩ | ⟨_, _, -, -, he⟩ | ⟨mn, len, hd, hlen, he⟩ <;> rw [he] at h <;> cases h
    obtain ⟨hmn, rfl⟩ := decodeByte_eq_some.1 hd
    exact ⟨b, tail, mn, rfl, hmn, hlen, rfl, rfl⟩

/-! ## The immediates -/

/-- The imm32 reader gives back the word whose bytes come first (R55, R88). -/
@[simp] theorem imm32Of_imm32Bytes (v : Word) (rest : List Byte) :
    imm32Of Config.imm32Defect (imm32Bytes v ++ rest) = v := leWord_wordByte v

/-- The instructions with an 8-bit immediate are two bytes long, and the immediate is the reader's value (R81, R87). -/
theorem assemble_imm8 {defect : Bool} {mn : Mnemonic} {b : Byte} {rest : List Byte} {v : Byte}
    (h : assemble defect mn b rest = .aptr v ∨ ∃ dst, assemble defect mn b rest = .mvi dst v) :
    mn.length = 2 ∧ v = imm8Of rest := by
  have hmn {i : Instr} (he : assemble defect mn b rest = i) : mn = i.mnemonic := by
    rw [← he, assemble_mnemonic]
  rcases h with h | ⟨dst, h⟩
  · obtain rfl : mn = .aptr := hmn h
    exact ⟨rfl, (Instr.aptr.inj h).symm⟩
  · obtain rfl : mn = .mvi := hmn h
    exact ⟨rfl, (Instr.mvi.inj h).2.symm⟩

/-- The imm8 read is the first byte (R87). -/
theorem imm8Of_take {rest : List Byte} (h : 1 ≤ rest.length) : [imm8Of rest] = rest.take 1 := by
  match rest, h with
  | _ :: _, _ => rfl

/-- The bytes of the imm32 read are the first four (R88). -/
theorem imm32Bytes_imm32Of {rest : List Byte} (h : 4 ≤ rest.length) :
    imm32Bytes (imm32Of Config.imm32Defect rest) = rest.take 4 := by
  match rest, h with
  | b0 :: b1 :: b2 :: b3 :: _, _ =>
    obtain ⟨h0, h1, h2, h3⟩ := wordByte_leWord b0 b1 b2 b3
    show imm32Bytes (leWord b0 b1 b2 b3) = [b0, b1, b2, b3]
    rw [imm32Bytes, h0, h1, h2, h3]

/-! ## Decode after encode -/

/-- The encoding has as many bytes as the instruction is long (R80). -/
theorem encode_length (i : Instr) : (encode i).length = i.length := by
  cases i with
  | mvi dst imm8 => exact (Laws.Length.mvi dst imm8).1
  | mv dst src => exact (Laws.Length.mv dst src).1
  | mvi32 dst imm32 => exact (Laws.Length.mvi32 dst imm32).1
  | mv32 dst src => exact (Laws.Length.mv32 dst src).1
  | halt => exact Laws.Length.halt.1
  | out => exact Laws.Length.out.1
  | jez imm32 => exact (Laws.Length.jez imm32).1
  | jnz imm32 => exact (Laws.Length.jnz imm32).1
  | cmp => exact Laws.Length.cmp.1
  | add => exact Laws.Length.add.1
  | sub => exact Laws.Length.sub.1
  | xor => exact Laws.Length.xor.1
  | aptr imm8 => exact (Laws.Length.aptr imm8).1

/-- A source operand that has an encoding has a field other than 0 (R86). -/
theorem Sel8.bits_ne_zero {x : Sel8} (h : x ≠ .zero) : x.bits ≠ 0 := fun hz => h (by rw [← Sel8.ofBits_bits x, hz]; rfl)

theorem Sel32.bits_ne_zero {x : Sel32} (h : x ≠ .zero) : x.bits ≠ 0 :=
  fun hz => h (by rw [← Sel32.ofBits_bits x, hz]; rfl)

/-- The encoding of a well-formed instruction is an opcode byte of its mnemonic and the bytes from which the instruction is
assembled again, whatever follows them (R81). -/
theorem encode_eq_cons {i : Instr} (h : i.wellFormed = true) :
    ∃ b imm, encode i = b :: imm ∧ mnemonicOf b = some i.mnemonic ∧
      ∀ rest, assemble Config.imm32Defect i.mnemonic b (imm ++ rest) = i := by
  cases i with
  | mvi dst imm8 =>
    refine ⟨moveByte 0x40 dst.bits.toNat (0#3).toNat, [imm8], rfl, mnemonicOf_moveByte8 dst.bits 0, fun rest => ?_⟩
    simp only [Instr.mnemonic, assemble, dstBits_moveByte, true_or, Sel8.ofBits_bits]
    rfl
  | mv dst src =>
    have hsrc : src.bits ≠ 0 := Sel8.bits_ne_zero (by simpa [Instr.wellFormed] using h)
    refine ⟨_, [], rfl, ?_, fun rest => ?_⟩
    · rw [mnemonicOf_moveByte8, if_neg hsrc]; rfl
    · simp [Instr.mnemonic, assemble]
  | mvi32 dst imm32 =>
    refine ⟨moveByte 0x80 dst.bits.toNat (0#3).toNat, imm32Bytes imm32, rfl, mnemonicOf_moveByte32 dst.bits 0,
      fun rest => ?_⟩
    simp only [Instr.mnemonic, assemble, dstBits_moveByte, or_true, Sel32.ofBits_bits, imm32Of_imm32Bytes]
  | mv32 dst src =>
    have hsrc : src.bits ≠ 0 := Sel32.bits_ne_zero (by simpa [Instr.wellFormed] using h)
    refine ⟨_, [], rfl, ?_, fun rest => ?_⟩
    · rw [mnemonicOf_moveByte32, if_neg hsrc]; rfl
    · simp [Instr.mnemonic, assemble]
  | jez imm32 => exact ⟨_, _, rfl, rfl, fun rest => congrArg Instr.jez (imm32Of_imm32Bytes imm32 rest)⟩
  | jnz imm32 => exact ⟨_, _, rfl, rfl, fun rest => congrArg Instr.jnz (imm32Of_imm32Bytes imm32 rest)⟩
  | halt | out | cmp | add | sub | xor | aptr => exact ⟨_, _, rfl, rfl, fun _ => rfl⟩

/-- Settles O1: the encoding is an opcode byte of its mnemonic and then the immediate's bytes, so the decoder's first step
answers that mnemonic, and the second takes as many bytes as the encoding has. -/
theorem decodeOfEncodeIsTheInstruction : Obligations.DecodeOfEncodeIsTheInstruction := by
  intro i rest hwf
  obtain ⟨b, imm, hencode, hmn, hassemble⟩ := encode_eq_cons hwf
  have hlen : imm.length + 1 = i.mnemonic.length := by
    rw [← List.length_cons (a := b), ← hencode]; exact encode_length i
  have hdrop : (imm ++ rest).drop (i.mnemonic.length - 1) = rest := List.drop_left' (by omega)
  rw [hencode, List.cons_append, decode_of_mnemonicOf hmn (by rw [List.length_append]; omega), hassemble, hdrop]

/-! ## Encode after decode -/

/-- A source field other than 0 names an operand (R86). -/
theorem Sel8.ofBits_ne_zero {n : BitVec 3} (h : n ≠ 0) : Sel8.ofBits n ≠ .zero :=
  fun hz => h (by rw [← Sel8.bits_ofBits n, hz]; rfl)

theorem Sel32.ofBits_ne_zero {n : BitVec 3} (h : n ≠ 0) : Sel32.ofBits n ≠ .zero :=
  fun hz => h (by rw [← Sel32.bits_ofBits n, hz]; rfl)

/-- A move-family byte with source field 0 is the opcode byte of an immediate form (R82). -/
theorem moveByte_dstBits_zero {fam : Nat} (hfam : fam = 0x40 ∨ fam = 0x80) {b : Byte}
    (h : b &&& 0xC0#8 = BitVec.ofNat 8 fam) (hsrc : srcBits b = 0) : moveByte fam (dstBits b).toNat 0 = b := by
  have hfields := moveByte_fields hfam h
  rwa [hsrc] at hfields

/-- What is assembled has an encoding, and its encoding is the opcode byte and the bytes taken after it: the immediate form
has source field 0, and MV and MV32 another (R81, R83). -/
theorem encode_assemble {b : Byte} {mn : Mnemonic} {rest : List Byte} (h : mnemonicOf b = some mn)
    (hlen : mn.length ≤ rest.length + 1) :
    (assemble Config.imm32Defect mn b rest).wellFormed = true ∧
      encode (assemble Config.imm32Defect mn b rest) = b :: rest.take (mn.length - 1) := by
  have himm8 : 2 ≤ rest.length + 1 → [imm8Of rest] = rest.take 1 := fun hl => imm8Of_take (by omega)
  have himm32 : 5 ≤ rest.length + 1 → imm32Bytes (imm32Of Config.imm32Defect rest) = rest.take 4 :=
    fun hl => imm32Bytes_imm32Of (by omega)
  rcases mnemonicOf_cases h with ⟨hb, rfl⟩ | ⟨hb, rfl⟩ | hrow
  · by_cases hsrc : srcBits b = 0
    · rw [if_pos hsrc] at hlen ⊢
      refine ⟨rfl, ?_⟩
      rw [assemble, encode, Sel8.bits_ofBits, moveByte_dstBits_zero (.inl rfl) hb hsrc, himm8 hlen]
      rfl
    · rw [if_neg hsrc]
      refine ⟨by simpa [assemble, Instr.wellFormed] using Sel8.ofBits_ne_zero hsrc, ?_⟩
      rw [assemble, encode, Sel8.bits_ofBits, Sel8.bits_ofBits, moveByte_fields (.inl rfl) hb]
      rfl
  · by_cases hsrc : srcBits b = 0
    · rw [if_pos hsrc] at hlen ⊢
      refine ⟨rfl, ?_⟩
      rw [assemble, encode, Sel32.bits_ofBits, moveByte_dstBits_zero (.inr rfl) hb hsrc, himm32 hlen]
      rfl
    · rw [if_neg hsrc]
      refine ⟨by simpa [assemble, Instr.wellFormed] using Sel32.ofBits_ne_zero hsrc, ?_⟩
      rw [assemble, encode, Sel32.bits_ofBits, Sel32.bits_ofBits, moveByte_fields (.inr rfl) hb]
      rfl
  · simp only [fixedTable, List.mem_cons, Prod.mk.injEq, List.not_mem_nil, or_false] at hrow
    rcases hrow with ⟨rfl, rfl⟩ | ⟨rfl, rfl⟩ | ⟨rfl, rfl⟩ | ⟨rfl, rfl⟩ | ⟨rfl, rfl⟩ | ⟨rfl, rfl⟩ | ⟨rfl, rfl⟩ |
      ⟨rfl, rfl⟩ | ⟨rfl, rfl⟩
    · exact ⟨rfl, rfl⟩
    · exact ⟨rfl, rfl⟩
    · exact ⟨rfl, congrArg _ (himm32 hlen)⟩
    · exact ⟨rfl, congrArg _ (himm32 hlen)⟩
    · exact ⟨rfl, rfl⟩
    · exact ⟨rfl, rfl⟩
    · exact ⟨rfl, rfl⟩
    · exact ⟨rfl, rfl⟩
    · exact ⟨rfl, congrArg _ (himm8 hlen)⟩

/-- Settles O2: the decoder has assembled the instruction from the opcode byte and the bytes it has taken, and it answers
the others. -/
theorem decodedBytesAreItsEncoding : Obligations.DecodedBytesAreItsEncoding := by
  intro bytes rest i h
  obtain ⟨b, tail, mn, rfl, hmn, hlen, rfl, rfl⟩ := decode_eq_ok h
  obtain ⟨hwf, hencode⟩ := encode_assemble hmn hlen
  refine ⟨hwf, ?_⟩
  rw [hencode, List.cons_append, List.take_append_drop]

/-! ## The tables of the opcode bytes -/

/-- Settles O3, by evaluation of the decoder on each of the words. -/
theorem sampleWordsDecode : Obligations.SampleWordsDecode :=
  ⟨rfl, rfl, rfl, rfl, rfl, rfl, rfl, rfl, rfl, rfl, rfl⟩

/-- Settles O4: the two top bits and the source field give the mnemonic, and assembling copies the fields as they are. -/
theorem moveFamilyBytesAllDecode : Obligations.MoveFamilyBytesAllDecode := by
  intro b
  refine ⟨fun hb => ?_, fun hb => ?_⟩
  · have hmn := mnemonicOf_family8 hb
    simp only [srcBits_eq_zero] at hmn
    by_cases hsrc : b &&& 0x07#8 = 0
    · rw [if_pos hsrc] at hmn ⊢
      exact ⟨decodeByte_of_mnemonicOf hmn, fun i0 rest => decode_of_mnemonicOf hmn (by simp [Mnemonic.length])⟩
    · rw [if_neg hsrc] at hmn ⊢
      exact ⟨decodeByte_of_mnemonicOf hmn, fun rest => decode_of_mnemonicOf hmn (by simp [Mnemonic.length])⟩
  · have hmn := mnemonicOf_family32 hb
    simp only [srcBits_eq_zero] at hmn
    by_cases hsrc : b &&& 0x07#8 = 0
    · rw [if_pos hsrc] at hmn ⊢
      exact ⟨decodeByte_of_mnemonicOf hmn,
        fun i0 i1 i2 i3 rest => decode_of_mnemonicOf hmn (by simp [Mnemonic.length])⟩
    · rw [if_neg hsrc] at hmn ⊢
      exact ⟨decodeByte_of_mnemonicOf hmn, fun rest => decode_of_mnemonicOf hmn (by simp [Mnemonic.length])⟩

/-- Settles O5: outside the move family the decoder looks the byte up in the fixed table, whose rows carry their mnemonic's
length. -/
theorem fixedOpcodeTableIsComplete : Obligations.FixedOpcodeTableIsComplete := by
  refine ⟨fun b mn len hb => ?_, by decide⟩
  rw [decodeByte_eq_some, mnemonicOf_fixed hb, fixedOpcode_eq_some]
  show _ ↔ (b, mn, len) ∈ fixedTable.map fun row => (row.1, row.2, row.2.length)
  rw [List.mem_map]
  constructor
  · rintro ⟨hrow, rfl⟩
    exact ⟨_, hrow, rfl⟩
  · rintro ⟨row, hrow, heq⟩
    cases heq
    exact ⟨hrow, rfl⟩

/-- Settles O6, by counting: each clause evaluates the decoder on all 256 opcode bytes. -/
theorem opcodeByteCounts : Obligations.OpcodeByteCounts :=
  ⟨rfl, rfl, rfl, rfl, rfl, rfl, rfl, rfl⟩

/-! ## Invalid selectors -/

/-- The opcode byte decodes and names an operand outside its family's valid range (R91). -/
def hasInvalidSelector (b : Byte) : Bool :=
  (mnemonicOf b).any fun mn => !(assemble Config.imm32Defect mn b []).selectorsValid

/-- The selectors lie in the opcode byte: the immediate has none. -/
theorem assemble_selectorsValid (defect : Bool) (mn : Mnemonic) (b : Byte) (rest : List Byte) :
    (assemble defect mn b rest).selectorsValid = (assemble defect mn b []).selectorsValid := by
  cases mn <;> rfl

/-- Whether a decoded instruction has an invalid selector is told by its opcode byte. -/
theorem selectorsValid_of_decode {b : Byte} {tail rest : List Byte} {i : Instr} (h : decode (b :: tail) = .ok (i, rest)) :
    i.selectorsValid = !hasInvalidSelector b := by
  obtain ⟨_, _, mn, hbytes, hmn, -, rfl, -⟩ := decode_eq_ok h
  obtain ⟨rfl, rfl⟩ := List.cons.inj hbytes
  rw [assemble_selectorsValid, hasInvalidSelector, hmn, Option.any_some, Bool.not_not]

/-- The thirty opcode bytes with an invalid selector (R91). -/
theorem hasInvalidSelector_iff : ∀ b : Byte, hasInvalidSelector b = true ↔
    b ∈ [0x40#8, 0x41#8, 0x42#8, 0x43#8, 0x44#8, 0x45#8, 0x46#8, 0x47#8,
      0x80#8, 0x81#8, 0x82#8, 0x83#8, 0x84#8, 0x85#8, 0x86#8, 0x87#8,
      0x8F#8, 0x97#8, 0x9F#8, 0xA7#8, 0xAF#8, 0xB7#8,
      0xB8#8, 0xB9#8, 0xBA#8, 0xBB#8, 0xBC#8, 0xBD#8, 0xBE#8, 0xBF#8] := by decide

end Sys2Proof

namespace Sys2Proof.Machine

/-- Settles O8: a fetched instruction with an imm8 is two bytes long, so the byte the reader takes exists. -/
theorem imm8IsTheFollowingByte : Obligations.Imm8IsTheFollowingByte := by
  intro s i v hfetch hi
  obtain ⟨mn, b, -, hin, rfl⟩ := fetch_ok_assemble hfetch
  obtain ⟨hlen, rfl⟩ := assemble_imm8 hi
  obtain ⟨b1, h1⟩ := Memory.exists_read? (m := s.mem) (a := s.x32.pc.toNat + 1) (by omega)
  rw [bytesFrom_of_read? h1]
  exact ⟨h1, by simp only [memRead, h1]; rfl⟩

/-- An instruction with an invalid selector raises OutOfBounds before it reads or writes any operand (R91, R140). -/
theorem exec_invalid_selector {i : Instr} (h : i.selectorsValid = false) (s : State) :
    exec i s = .next (s.raise .selector) := by
  have hcheck (valid : Bool) (hv : valid = false) : checkSelectors valid = .error .selector :=
    (checkSelectors_error valid .selector).2 ⟨hv, rfl⟩
  cases i with
  | mvi dst imm8 => rw [exec_mvi, hcheck dst.valid h]; exact attempt_error rfl
  | mv dst src => rw [exec_mv, hcheck (dst.valid && src.valid) h]; exact attempt_error rfl
  | mvi32 dst imm32 => rw [exec_mvi32, hcheck dst.valid h]; exact attempt_error rfl
  | mv32 dst src => rw [exec_mv32, hcheck (dst.valid && src.valid) h]; exact attempt_error rfl
  | halt | out | jez | jnz | cmp | add | sub | xor | aptr => cases h

/-- Where the next `wd` is false, a step of a run fetches and runs an instruction (R112). -/
theorem step_of_fetches {s : State} (h : Fetches s) : step s = runInstruction (takeSample s) := by
  obtain ⟨hstatus, hwatchdog⟩ := h
  rw [step_running hstatus, iteration, hwatchdog]
  rfl

/-- A fatal condition raised after the sample has been taken leaves the state of R207. -/
theorem raise_takeSample (s : State) (info : FaultInfo) :
    (takeSample s).raise info = faultedFrom s info.kind info := by
  rw [State.raise, takeSample_x32]
  rfl

/-- Settles O23: the fetched instruction raises at its selector check, and the selectors are those of the opcode byte. -/
theorem invalidSelectorFaults : Obligations.InvalidSelectorFaults := by
  refine ⟨fun s i rest hf hd hv => ?_, fun b i0 i1 i2 i3 i rest hd => ?_⟩
  · rw [step_of_fetches hf, runInstruction, fetch_takeSample, fetch_of_decode hd]
    exact (exec_invalid_selector hv _).trans (congrArg _ (raise_takeSample s .selector))
  · rw [selectorsValid_of_decode hd, Bool.not_eq_false', hasInvalidSelector_iff]

end Sys2Proof.Machine
end

section
/-! PROOFS. What one iteration answers by the watchdog and by the fetch, and that the watchdog has no other part in a run;
then the statements of the family of the engine. -/

namespace Sys2Proof.Machine

/-! ## The host's start -/

/-- Settles O12. -/
theorem runStartsFromIdleOnly : Obligations.RunStartsFromIdleOnly := fun _ =>
  ⟨fun hidle => if_pos hidle, fun hbusy => ⟨_, inIdle_refused hbusy .runNotRestartable _⟩⟩

/-- Settles O48: reset leaves the reset values, and every other transaction asks for IDLE, where they still stand. -/
theorem everyTransactionKeepsTheInvariant : Obligations.EveryTransactionKeepsTheInvariant :=
  fun _ _ _ hinv h => transact_keeps_inv hinv h

/-! ## The watchdog before the fetch -/

/-- Taking the watchdog's sample changes nothing of the core (log 8). -/
theorem sameCore_takeSample (s : State) : SameCore s (takeSample s) :=
  ⟨(takeSample_x8 s).symm, (takeSample_x32 s).symm, (takeSample_mem s).symm, (takeSample_outseq s).symm,
    (takeSample_icount s).symm⟩

/-- Where `wd` is true a step of a run is the time-out (R114). -/
theorem step_of_fires {s : State} (hs : s.status = .running) (hw : watchdogFires s = true) :
    step s = .next ((takeSample s).setStatus .timedOut) := by
  rw [step_running hs, iteration, if_pos hw]

/-- Settles O17. -/
theorem watchdogTimesOutBeforeTheFetch : Obligations.WatchdogTimesOutBeforeTheFetch :=
  ⟨fun s hs hw => ⟨_, step_of_fires hs hw, rfl, sameCore_takeSample s⟩,
    fun _ _ h => watchdogFires_maxInstr h,
    fun _ _ _ h => ⟨watchdogFires_wallClock h, takeSample_wallClock h⟩⟩

/-! ## The fetch -/

/-- A fetched instruction is executed in the state the iteration began in, with the sample taken (R119). -/
theorem step_of_fetch_ok {s : State} {i : Instr} (h : Fetches s) (hf : fetch s = .ok i) :
    step s = exec i (takeSample s) := by
  rw [step_of_fetches h, runInstruction, fetch_takeSample, hf]

/-- A fatal condition of the fetch changes nothing but the status (R207). -/
theorem step_of_fetch_error {s : State} {info : FaultInfo} (h : Fetches s) (hf : fetch s = .error info) :
    step s = .next (faultedFrom s info.kind info) := by
  rw [step_of_fetches h, runInstruction, fetch_takeSample, hf]
  exact congrArg _ (raise_takeSample s info)

/-- Settles O18. -/
theorem stepRunsTheDecodedInstruction : Obligations.StepRunsTheDecodedInstruction := fun s _ _ h hd =>
  ⟨step_of_fetch_ok h (fetch_of_decode hd), sameCore_takeSample s, takeSample_status s,
    fun _ hk => fetchWindow_getElem? s hk⟩

/-- Settles O20: of the answers of the fetch, all but the first need a byte at `pc`. -/
theorem opcodeFetchOutsideMemoryFaults : Obligations.OpcodeFetchOutsideMemoryFaults := by
  intro s h hout
  rcases fetch_cases s with ⟨-, hf⟩ | ⟨b, hb, -⟩
  · exact step_of_fetch_error h hf
  · exact absurd (Memory.lt_size_of_read? hb) (Nat.not_lt.2 hout)

/-- Settles O22: the byte at `pc` decides the length, and of the answers of the fetch only the extent fault allows that
length to pass the end of memory. -/
theorem instructionPastMemoryFaults : Obligations.InstructionPastMemoryFaults := by
  intro b mn len hdecode s h hbyte hpast
  rcases fetch_cases s with ⟨hout, -⟩ | ⟨b', hbyte', hcases⟩
  · exact absurd (Memory.lt_size_of_read? hbyte) (Nat.not_lt.2 hout)
  · obtain rfl : b = b' := Option.some.inj (hbyte.symm.trans hbyte')
    rw [hdecode] at hcases
    rcases hcases with ⟨hnone, -⟩ | ⟨_, _, hlen, -, hf⟩ | ⟨i, hlen, hin, -⟩
    · cases hnone
    · cases hlen; exact step_of_fetch_error h hf
    · cases hlen; exact absurd hpast (Nat.not_lt.2 hin)

/-! ## Every step of a run answers -/

theorem exec_answers (i : Instr) (s : State) : ∃ t, exec i s = .next t := by
  obtain ⟨effect, he⟩ := exec_eq_attempt i s
  rw [he]
  exact attempt_answers i.length effect s

theorem runInstruction_answers (s : State) : ∃ t, runInstruction s = .next t := by
  unfold runInstruction
  cases fetch s with
  | ok i => exact exec_answers i s
  | error info => exact ⟨_, rfl⟩

theorem step_running_answers {s : State} (hs : s.status = .running) : ∃ t, step s = .next t := by
  cases hw : watchdogFires s with
  | true => exact ⟨_, step_of_fires hs hw⟩
  | false => rw [step_of_fetches ⟨hs, hw⟩]; exact runInstruction_answers _

/-- Settles O19. -/
theorem runningStepAnswersNext : Obligations.RunningStepAnswersNext :=
  ⟨fun _ hs => step_running_answers hs, exec_answers⟩

/-! ## An instruction does not see the watchdog -/

/-- The same machine under another watchdog (R121). -/
def State.withWatchdog (s : State) (w : Watchdog) : State := { s with watchdog := w }

/-- Taking the sample is a change of the watchdog only (log 8). -/
theorem takeSample_eq_withWatchdog (s : State) : takeSample s = s.withWatchdog (takeSample s).watchdog := by
  unfold takeSample; split <;> rfl

/-- The effect answers the same under every watchdog, and leaves the watchdog as it is. -/
def IgnoresWatchdog (effect : State → Except FaultInfo State) : Prop :=
  ∀ (w : Watchdog) (t : State), effect (t.withWatchdog w) = (effect t).map (·.withWatchdog w)

/-- To read something that is no matter of the watchdog, or raise, and then to write it. -/
theorem ignoresWatchdog_bind {α : Type} {read : State → Except FaultInfo α}
    {write : α → State → Except FaultInfo State} (hread : ∀ w t, read (t.withWatchdog w) = read t)
    (hwrite : ∀ v, IgnoresWatchdog (write v)) : IgnoresWatchdog fun t => (read t).bind fun v => write v t := by
  intro w t
  dsimp only
  rw [hread]
  cases read t with
  | ok v => exact hwrite v w t
  | error info => rfl

theorem read8_withWatchdog (sel : Sel8) (w : Watchdog) (t : State) : read8 sel (t.withWatchdog w) = read8 sel t := rfl

theorem read32_withWatchdog (sel : Sel32) (w : Watchdog) (t : State) :
    read32 sel (t.withWatchdog w) = read32 sel t := rfl

theorem ignoresWatchdog_write8 (sel : Sel8) (v : Byte) : IgnoresWatchdog (write8 sel v) := by
  intro w t
  cases sel with
  | zero | reg => rfl
  | ind =>
    show memWrite (effectiveAddress t) v (t.withWatchdog w) = (memWrite (effectiveAddress t) v t).map _
    rcases memWrite_cases (effectiveAddress t) v t with ⟨hin, he⟩ | ⟨hout, he⟩ <;> rw [he]
    · exact if_pos hin
    · exact if_neg (Nat.not_lt.2 hout)

theorem ignoresWatchdog_write32 (sel : Sel32) (v : Word) : IgnoresWatchdog (write32 sel v) := by
  intro w t
  cases sel <;> rfl

theorem ignoresWatchdog_addToPtr (imm8 : Byte) : IgnoresWatchdog (addToPtr imm8) := by
  intro w t
  by_cases hsum : Config.addressSpan ≤ t.x32.ptr.toNat + imm8.toNat
  · rw [show addToPtr imm8 t = .error .ptrOverflow from if_pos hsum]
    exact if_pos hsum
  · rw [show addToPtr imm8 t = .ok _ from if_neg hsum]
    exact if_neg hsum

theorem ignoresWatchdog_jumpIf (cond : Byte → Bool) (target : Word) :
    IgnoresWatchdog fun t => .ok (jumpIf (cond t.x8.f) target t) := fun w t =>
  congrArg Except.ok (apply_ite (fun u : State => u.withWatchdog w) (cond t.x8.f) (t.set32 .pc target) t).symm

theorem attempt_withWatchdog {effect : State → Except FaultInfo State} (he : IgnoresWatchdog effect) {len : Nat}
    {s t : State} (h : attempt len effect s = .next t) (w : Watchdog) :
    attempt len effect (s.withWatchdog w) = .next (t.withWatchdog w) := by
  have hadvance := he w (s.advance len)
  rcases attempt_cases h with ⟨u, hu, rfl⟩ | ⟨info, hinfo, rfl⟩
  · rw [hu] at hadvance; exact attempt_ok (s := s.withWatchdog w) hadvance
  · rw [hinfo] at hadvance; exact attempt_error (s := s.withWatchdog w) hadvance

/-- Every meaning is one `attempt` of an effect that ignores the watchdog (R119, R121). -/
theorem exec_eq_attempt_ignoresWatchdog (i : Instr) :
    ∃ effect, (∀ s, exec i s = attempt i.length effect s) ∧ IgnoresWatchdog effect := by
  cases i with
  | mvi dst imm8 =>
    exact ⟨_, exec_mvi dst imm8, ignoresWatchdog_bind (fun _ _ => rfl) fun _ => ignoresWatchdog_write8 dst imm8⟩
  | mv dst src =>
    exact ⟨_, exec_mv dst src, ignoresWatchdog_bind (fun _ _ => rfl) fun _ =>
      ignoresWatchdog_bind (read8_withWatchdog src) (ignoresWatchdog_write8 dst)⟩
  | mvi32 dst imm32 =>
    exact ⟨_, exec_mvi32 dst imm32, ignoresWatchdog_bind (fun _ _ => rfl) fun _ => ignoresWatchdog_write32 dst imm32⟩
  | mv32 dst src =>
    exact ⟨_, exec_mv32 dst src, ignoresWatchdog_bind (fun _ _ => rfl) fun _ =>
      ignoresWatchdog_bind (read32_withWatchdog src) (ignoresWatchdog_write32 dst)⟩
  | jez target => exact ⟨_, exec_jez target, ignoresWatchdog_jumpIf conditionZero target⟩
  | jnz target => exact ⟨_, exec_jnz target, ignoresWatchdog_jumpIf conditionNonzero target⟩
  | aptr imm8 => exact ⟨_, exec_aptr imm8, ignoresWatchdog_addToPtr imm8⟩
  | halt => exact ⟨_, exec_halt, fun _ _ => rfl⟩
  | out => exact ⟨_, exec_out, fun _ _ => rfl⟩
  | cmp => exact ⟨_, exec_cmp, fun _ _ => rfl⟩
  | add => exact ⟨_, exec_add, fun _ _ => rfl⟩
  | sub => exact ⟨_, exec_sub, fun _ _ => rfl⟩
  | xor => exact ⟨_, exec_xor, fun _ _ => rfl⟩

/-- The meaning of an instruction is the same under every watchdog (R121). -/
theorem exec_withWatchdog {i : Instr} {s t : State} (h : exec i s = .next t) (w : Watchdog) :
    exec i (s.withWatchdog w) = .next (t.withWatchdog w) := by
  obtain ⟨effect, hexec, hignores⟩ := exec_eq_attempt_ignoresWatchdog i
  rw [hexec] at h ⊢
  exact attempt_withWatchdog hignores h w

theorem runInstruction_withWatchdog {s t : State} (h : runInstruction s = .next t) (w : Watchdog) :
    runInstruction (s.withWatchdog w) = .next (t.withWatchdog w) := by
  have hfetch : fetch (s.withWatchdog w) = fetch s := rfl
  unfold runInstruction at h ⊢
  rw [hfetch]
  cases hf : fetch s with
  | ok i => rw [hf] at h; exact exec_withWatchdog h w
  | error info => rw [hf] at h; cases h; rfl

/-- Where `wd` is false, an iteration under any watchdog leaves the state the instruction leaves, but for the watchdog. -/
theorem step_withWatchdog {s t : State} {w : Watchdog} (h : runInstruction s = .next t)
    (hf : Fetches (s.withWatchdog w)) : ∃ w', step (s.withWatchdog w) = .next (t.withWatchdog w') := by
  refine ⟨(takeSample (s.withWatchdog w)).watchdog, ?_⟩
  rw [step_of_fetches hf, takeSample_eq_withWatchdog]
  exact runInstruction_withWatchdog h _

/-! ## Runs under two watchdogs -/

/-- An iteration appends to the output and leaves the host's moves alone (R191, log 11). -/
theorem step_running_frame {s t : State} (hs : s.status = .running) (h : step s = .next t) :
    s.outseq <+: t.outseq ∧ t.hostMoves = s.hostMoves := by
  rcases step_running_cases hs h with ⟨-, rfl⟩ | ⟨info, -, rfl⟩ | ⟨-, i, -, hdone⟩
  · simp
  · simp
  · obtain ⟨-, -, hmoves⟩ := hdone.inputs
    rcases hdone.outseq with ho | ⟨-, ho⟩ <;> simp [ho, hmoves]

/-- With no pending move, the output of a run only grows. -/
theorem run_output_grows {n : Nat} {s t : State} (hm : s.hostMoves = [])
    (h : Host.Core.run Sys2Proof.core n s = .next t) : s.outseq <+: t.outseq := by
  induction n generalizing s with
  | zero => cases h; exact List.prefix_refl _
  | succ n ih =>
    by_cases hs : s.status = .running
    · obtain ⟨a, ha⟩ := step_running_answers hs
      obtain ⟨hout, hmoves⟩ := step_running_frame hs ha
      rw [run_succ ha] at h
      exact hout.trans (ih (hmoves.trans hm) h)
    · rw [run_stays hs hm] at h
      cases h
      exact List.prefix_refl _

/-- A run whose watchdog fires at once stays at the time-out. -/
theorem run_of_fires {n : Nat} {s t : State} (hs : s.status = .running) (hm : s.hostMoves = [])
    (hw : watchdogFires s = true) (h : Host.Core.run Sys2Proof.core (n + 1) s = .next t) :
    t = (takeSample s).setStatus .timedOut := by
  rw [run_succ (step_of_fires hs hw), run_stays (by simp) (by simpa using hm)] at h
  cases h
  rfl

/-- `u` is the state that a run from `s` had after some `j < n` steps, while still running, but for watchdog and status;
`t` is where that run ended. -/
def CutOf (s t u : State) (n : Nat) : Prop :=
  ∃ j v, j < n ∧ Host.Core.run Sys2Proof.core j s = .next v ∧ v.status = .running ∧
    SameCore u v ∧ u.icount = s.icount + j ∧ u.outseq <+: t.outseq

/-- A cut of the run from the next state is a cut of the run. -/
theorem CutOf.of_step {s a t u : State} {n : Nat} (hstep : step s = .next a) (hcount : a.icount = s.icount + 1)
    (h : CutOf a t u n) : CutOf s t u (n + 1) := by
  obtain ⟨j, v, hj, hv, hrunning, hcore, hicount, hout⟩ := h
  exact ⟨j + 1, v, by omega, by rw [run_succ hstep, hv], hrunning, hcore, by omega, hout⟩

/-- R121, step by step: beside a halting run, a run from the same state under another watchdog ends the same way, or times
out at a state the halting run went through. Until either watchdog fires the two make the same steps. -/
theorem halting_run_beside {n k : Nat} {s t u : State} {w w' : Watchdog} (hs : s.status = .running)
    (hm : s.hostMoves = []) (ht : Host.Core.run Sys2Proof.core n (s.withWatchdog w) = .next t)
    (hhalted : t.status = .halted) (hu : Host.Core.run Sys2Proof.core k (s.withWatchdog w') = .next u)
    (hended : u.status ≠ .running) :
    (u.status = .halted ∧ u.outseq = t.outseq) ∨ (u.status = .timedOut ∧ CutOf (s.withWatchdog w) t u n) := by
  induction n generalizing k s w w' with
  | zero => cases ht; rw [show (s.withWatchdog w).status = .running from hs] at hhalted; cases hhalted
  | succ n ih =>
    cases k with
    | zero => cases hu; exact absurd hs hended
    | succ k =>
      cases hw : watchdogFires (s.withWatchdog w) with
      | true => rw [run_of_fires (s := s.withWatchdog w) hs hm hw ht] at hhalted; cases hhalted
      | false =>
        cases hw' : watchdogFires (s.withWatchdog w') with
        | true =>
          have hgrows : s.outseq <+: t.outseq := run_output_grows (s := s.withWatchdog w) hm ht
          obtain rfl := run_of_fires (s := s.withWatchdog w') hs hm hw' hu
          refine .inr ⟨rfl, 0, s.withWatchdog w, Nat.succ_pos n, rfl, hs, ?_⟩
          simpa [SameCore, State.withWatchdog] using hgrows
        | false =>
          obtain ⟨a, ha⟩ := runInstruction_answers s
          obtain ⟨wa, hstep⟩ := step_withWatchdog ha (w := w) ⟨hs, hw⟩
          obtain ⟨wa', hstep'⟩ := step_withWatchdog ha (w := w') ⟨hs, hw'⟩
          obtain ⟨-, hmoves⟩ := step_running_frame (s := s.withWatchdog w) hs hstep
          have hma : a.hostMoves = [] := hmoves.trans hm
          rw [run_succ hstep] at ht
          rw [run_succ hstep'] at hu
          by_cases hra : a.status = .running
          · have hcount := (completedInstructionsAreCounted (s.withWatchdog w) _ hs hstep).1 (.inl hra)
            exact (ih hra hma ht hu).imp_right fun ⟨hto, hcut⟩ => ⟨hto, hcut.of_step hstep hcount⟩
          · rw [run_stays (s := a.withWatchdog wa) hra hma] at ht
            rw [run_stays (s := a.withWatchdog wa') hra hma] at hu
            cases ht
            cases hu
            exact .inl ⟨hhalted, rfl⟩

/-- Settles O52. -/
theorem watchdogOnlyCutsARunShort : Obligations.WatchdogOnlyCutsARunShort := by
  intro s t u w w' n k hs hm ht hhalted hu htimedOut
  rcases halting_run_beside hs hm ht hhalted hu (by rw [htimedOut]; decide) with ⟨hh, -⟩ | ⟨-, hcut⟩
  · rw [htimedOut] at hh; cases hh
  · exact hcut

/-- Settles O53. -/
theorem haltedOutputIsUnique : Obligations.HaltedOutputIsUnique := by
  rintro s w w' _ _ hs hm ⟨n, t, ht, hhalted, rfl⟩ ⟨k, u, hu, hhalted', rfl⟩
  rcases halting_run_beside hs hm ht hhalted hu (by rw [hhalted']; decide) with ⟨-, hout⟩ | ⟨hto, -⟩
  · exact hout.symm
  · rw [hhalted'] at hto; cases hto

end Sys2Proof.Machine
end

section
/-! PROOFS. What each form of the move family does once its source is known: the write of a byte or of a word under
`attempt`; then the statements of the family of the moves. -/

namespace Sys2Proof

/-- Of the selectors of the 8-bit family only 0 is invalid (R91). -/
theorem Sel8.valid_of_ne_zero {x : Sel8} (h : x ≠ .zero) : x.valid = true := by
  cases x with
  | zero => exact absurd rfl h
  | reg r => rfl
  | ind => rfl

end Sys2Proof

namespace Sys2Proof.Machine

/-! ## The operands of the 8-bit family -/

/-- A read through `(ptr+c)` inside the memory (R53, R140). -/
theorem read8_ind {s : State} {v : Byte} (h : s.mem.read? (effectiveAddress s) = some v) : read8 .ind s = .ok v := by
  simp only [read8, memRead, h]

/-- A read through `(ptr+c)` outside the memory is OutOfBounds with that address (R53, R202). -/
theorem read8_ind_outside {s : State} (h : s.mem.size ≤ effectiveAddress s) :
    read8 .ind s = .error (.dataAddress (effectiveAddress s)) := by
  simp only [read8, memRead, Memory.read?_eq_none.2 h]

/-- A write through `(ptr+c)` outside the memory is OutOfBounds with that address (R54, R202). -/
theorem write8_ind_outside {s : State} (h : s.mem.size ≤ effectiveAddress s) (v : Byte) :
    write8 .ind v s = .error (.dataAddress (effectiveAddress s)) := if_neg (Nat.not_lt.2 h)

/-! ## MV -/

/-- MV with valid selectors and a source that reads as `v` is the write of `v` (R142). -/
theorem exec_mv_of_read {dst src : Sel8} {s : State} {v : Byte} (hvalid : (dst.valid && src.valid) = true)
    (hread : read8 src (s.advance 1) = .ok v) : exec (.mv dst src) s = attempt 1 (write8 dst v) s := by
  rw [exec_mv, hvalid]
  simp only [attempt, checkSelectors, if_true, Except.bind, hread]

/-- MV with valid selectors raises what the read of its source raises: nothing is written (R142, R207). -/
theorem exec_mv_of_read_error {dst src : Sel8} {s : State} {info : FaultInfo}
    (hvalid : (dst.valid && src.valid) = true) (hread : read8 src (s.advance 1) = .error info) :
    exec (.mv dst src) s = .next (s.raise info) := by
  rw [exec_mv, hvalid]
  refine attempt_error ?_
  simp only [checkSelectors, if_true, Except.bind, hread]

/-- MV with a memory operand and an address outside the memory: a source `(ptr+c)` raises when it is read, a register
source leaves it to the destination (R142, R202). -/
theorem exec_mv_outside {dst src : Sel8} {s : State} (hdst : dst ≠ .zero) (hsrc : src ≠ .zero)
    (hind : dst = .ind ∨ src = .ind) (hout : s.mem.size ≤ effectiveAddress s) :
    exec (.mv dst src) s = .next (s.raise (.dataAddress (effectiveAddress s))) := by
  cases src with
  | zero => exact absurd rfl hsrc
  | ind =>
    have hvalid : (dst.valid && Sel8.ind.valid) = true := by rw [Sel8.valid_of_ne_zero hdst]; rfl
    exact exec_mv_of_read_error hvalid (read8_ind_outside (s := s.advance 1) hout)
  | reg q =>
    obtain rfl : dst = .ind := hind.resolve_right (by simp)
    rw [exec_mv_of_read rfl rfl]
    exact attempt_error (write8_ind_outside (s := s.advance 1) hout _)

/-- MV from `(ptr+c)` to a register inside the memory: the advance, the write, the count (R142). -/
theorem exec_mv_reg_ind {s : State} {v : Byte} (hv : s.mem.read? (effectiveAddress s) = some v) (p : Reg8) :
    exec (.mv (.reg p) .ind) s = .next ((s.advance 1).set8 p v).tick :=
  exec_mv_of_read rfl (read8_ind (s := s.advance 1) hv)

/-- MV from `(ptr+c)` to itself inside the memory: the byte is written back, which changes nothing (R142). -/
theorem exec_mv_ind_ind {s : State} (hwf : s.mem.wf = true) (hin : effectiveAddress s < s.mem.size) :
    exec (.mv .ind .ind) s = .next (s.advance 1).tick := by
  obtain ⟨v, hv⟩ := Memory.exists_read? hin
  have hsame : (s.advance 1).mem.write (effectiveAddress (s.advance 1)) v = (s.advance 1).mem :=
    Memory.write_self hwf hv
  rw [exec_mv_of_read rfl (read8_ind (s := s.advance 1) hv), attempt_ok (write8_ind (s := s.advance 1) hin v), hsame]

/-- Settles O27. -/
theorem mvCopiesAByte : Obligations.MvCopiesAByte :=
  ⟨fun _ _ => rfl, fun s =>
    ⟨fun _ _ => exec_mv_of_read rfl rfl,
      fun p _ hv => exec_mv_reg_ind hv p,
      fun q hin => exec_mv_ind_reg hin q,
      fun hwf hin => exec_mv_ind_ind hwf hin,
      fun _ => exec_invalid_selector rfl s,
      fun _ _ hdst hsrc hind hout => exec_mv_outside hdst hsrc hind hout⟩⟩

/-- Settles O43: the load reads the written memory at the same address, for the store leaves `ptr` and `c` alone. -/
theorem storeThenLoadGivesTheByte : Obligations.StoreThenLoadGivesTheByte := by
  intro s q p hwf hin
  have hread (a : Nat) := Memory.read?_write hwf (effectiveAddress s) a (s.x8.get q)
  have hthere := (hread (effectiveAddress s)).trans (if_pos ⟨rfl, hin⟩)
  refine ⟨_, _, exec_mv_ind_reg hin q, exec_mv_reg_ind hthere p, ?_, rfl, hthere, fun a ha => ?_⟩
  · simp
  · exact (hread a).trans (if_neg fun h => ha h.1)

/-! ## MVI -/

/-- The opcode byte of every MVI decodes to a two-byte instruction, its destination unchecked (R82, R84). -/
theorem decodeByte_mvi (dst : Sel8) : decodeByte (BitVec.ofNat 8 (0x40 + 8 * dst.bits.toNat)) = some (.mvi, 2) :=
  decodeByte_of_mnemonicOf (mnemonicOf_moveByte8 dst.bits 0)

/-- MVI to `(ptr+c)` outside the memory (R143, R202). -/
theorem exec_mvi_ind_outside {s : State} (h : s.mem.size ≤ effectiveAddress s) (imm8 : Byte) :
    exec (.mvi .ind imm8) s = .next (s.raise (.dataAddress (effectiveAddress s))) := by
  rw [exec_mvi]
  exact attempt_error (write8_ind_outside (s := s.advance 2) h imm8)

/-- Settles O28. -/
theorem mviWritesTheImmediateByte : Obligations.MviWritesTheImmediateByte :=
  ⟨fun _ _ => rfl,
    fun s imm8 =>
      ⟨fun _ => rfl,
        fun hin => exec_mvi_ind hin imm8,
        exec_invalid_selector rfl s,
        fun hout => exec_mvi_ind_outside hout imm8⟩,
    fun dst => instructionPastMemoryFaults _ _ _ (decodeByte_mvi dst)⟩

/-! ## MV32 and MVI32 -/

/-- A write to another register than `pc` and the advance do not meet. -/
theorem Regs32.set_set_pc {p : Reg32} (hp : p ≠ .pc) (x : Regs32) (v w : Word) :
    (x.set .pc w).set p v = { x.set p v with pc := w } := by
  cases p with
  | pc => exact absurd rfl hp
  | la | lb | lc | ld | ptr => rfl

/-- MV32 between registers: the source is read, and the destination written, after the advance (R27, R144). -/
theorem exec_mv32_reg (p q : Reg32) (s : State) :
    exec (.mv32 (.reg p) (.reg q)) s =
      .next ((s.advance 1).set32 p (if q = .pc then s.x32.pc + 1 else s.x32.get q)).tick := by
  rw [← Regs32.get_set]; rfl

/-- MVI32 to a register: the destination is written after the advance (R145). -/
theorem exec_mvi32_reg (p : Reg32) (imm32 : Word) (s : State) :
    exec (.mvi32 (.reg p) imm32) s = .next ((s.advance 5).set32 p imm32).tick := rfl

/-- The state after the advance, the write of another register than `pc`, and the count. -/
theorem tick_set32_advance {p : Reg32} (hp : p ≠ .pc) (v : Word) (len : Nat) (s : State) :
    ((s.advance len).set32 p v).tick =
      { s with x32 := { s.x32.set p v with pc := s.x32.pc + BitVec.ofNat 32 len }, icount := s.icount + 1 } := by
  rw [← Regs32.set_set_pc hp]; rfl

/-- Settles O29. -/
theorem mv32CopiesAWord : Obligations.Mv32CopiesAWord := by
  refine ⟨fun _ _ => rfl, fun s => ⟨fun p q hp => ?_, fun q => exec_mv32_reg .pc q s, fun _ _ hinvalid => ?_⟩⟩
  · exact (exec_mv32_reg p q s).trans (congrArg _ (tick_set32_advance hp _ 1 s))
  · refine exec_invalid_selector ?_ s
    rcases hinvalid with rfl | rfl | rfl
    · rfl
    · rfl
    · exact Bool.and_false _

/-- The opcode byte of every MVI32 decodes to a five-byte instruction, its destination unchecked (R82, R84). -/
theorem decodeByte_mvi32 (dst : Sel32) : decodeByte (BitVec.ofNat 8 (0x80 + 8 * dst.bits.toNat)) = some (.mvi32, 5) :=
  decodeByte_of_mnemonicOf (mnemonicOf_moveByte32 dst.bits 0)

/-- The bytes of an imm32, the first of them the word reduced (R55). -/
theorem imm32Bytes_eq (v : Word) : imm32Bytes v =
    [BitVec.ofNat 8 v.toNat, BitVec.ofNat 8 (v.toNat / 2 ^ 8), BitVec.ofNat 8 (v.toNat / 2 ^ 16),
      BitVec.ofNat 8 (v.toNat / 2 ^ 24)] := by
  simp [imm32Bytes, wordByte]

/-- Settles O30. -/
theorem mvi32WritesTheImmediateWord : Obligations.Mvi32WritesTheImmediateWord := by
  refine ⟨fun dst v => congrArg (moveByte 0x80 dst.bits.toNat 0 :: ·) (imm32Bytes_eq v),
    fun s imm32 => ⟨fun p hp => ?_, exec_mvi32_reg .pc imm32 s, fun dst hinvalid => ?_⟩,
    fun dst => instructionPastMemoryFaults _ _ _ (decodeByte_mvi32 dst)⟩
  · exact (exec_mvi32_reg p imm32 s).trans (congrArg _ (tick_set32_advance hp imm32 5 s))
  · rcases hinvalid with rfl | rfl <;> exact exec_invalid_selector rfl s

end Sys2Proof.Machine
end

section
/-! PROOFS. The statements of the arithmetic, logic, compare and pointer instructions: what a byte operation answers in
every state, the two sums as numbers, and the two answers of APTR. -/

namespace Sys2Proof.Machine

/-! ## ADD, SUB, XOR, CMP -/

/-- A byte operation raises nothing: it answers the advance, the write of the result on the old `a` and `b`, the count
(R112, R160 to R163). -/
theorem attempt_byteOp (len : Nat) (dst : Reg8) (op : Byte → Byte → Byte) (s : State) :
    attempt len (fun t => .ok (t.set8 dst (op t.x8.a t.x8.b))) s =
      .next ((s.advance len).set8 dst (op s.x8.a s.x8.b)).tick := attempt_ok rfl

/-- R160's formula is the sum of bytes. -/
theorem byte_add_eq_ofNat (x y : Byte) : x + y = BitVec.ofNat 8 ((x.toNat + y.toNat) % 256) := by
  apply BitVec.eq_of_toNat_eq
  rw [BitVec.toNat_add, BitVec.toNat_ofNat, Nat.mod_mod]

/-- R161's formula by cases is the difference of bytes. -/
theorem byte_sub_eq_ofNat (x y : Byte) : x - y =
    BitVec.ofNat 8 (if y.toNat ≤ x.toNat then x.toNat - y.toNat else x.toNat + 256 - y.toNat) := by
  apply BitVec.eq_of_toNat_eq
  rw [BitVec.toNat_sub, BitVec.toNat_ofNat]
  split
  · next hle => rw [show 2 ^ 8 - y.toNat + x.toNat = x.toNat - y.toNat + 2 ^ 8 by omega, Nat.add_mod_right]
  · next hlt => rw [show 2 ^ 8 - y.toNat + x.toNat = x.toNat + 256 - y.toNat by omega]

/-- Settles O31: ADD is a byte operation, and the sum of bytes is R160's number. -/
theorem addIsModulo256 : Obligations.AddIsModulo256 := by
  refine ⟨rfl, fun s => ?_⟩
  rw [exec_add, attempt_byteOp 1 .a (· + ·), byte_add_eq_ofNat]
  rfl

/-- Settles O32: SUB is a byte operation, and the difference of bytes is R161's number. -/
theorem subIsModulo256 : Obligations.SubIsModulo256 := by
  refine ⟨rfl, fun s => ?_⟩
  rw [exec_sub, attempt_byteOp 1 .a (· - ·), byte_sub_eq_ofNat]
  rfl

/-- Settles O33: XOR is a byte operation, and the exclusive or of bytes is taken bit by bit. -/
theorem xorIsBitwise : Obligations.XorIsBitwise :=
  ⟨rfl, fun s => ⟨s.x8.a ^^^ s.x8.b, (exec_xor s).trans (attempt_byteOp 1 .a (· ^^^ ·) s), fun _ => BitVec.getLsbD_xor⟩⟩

/-- Settles O34: CMP is a byte operation, `compareByte` into `f`. -/
theorem cmpWritesEqualityToF : Obligations.CmpWritesEqualityToF :=
  ⟨rfl, fun s => (exec_cmp s).trans (attempt_byteOp 1 .f compareByte s)⟩

/-! ## APTR -/

/-- A sum that 32 bits hold is written to `ptr` (R164). -/
theorem addToPtr_fits {s : State} {imm8 : Byte} (h : s.x32.ptr.toNat + imm8.toNat < 2 ^ 32) :
    addToPtr imm8 s = .ok (s.set32 .ptr (BitVec.ofNat 32 (s.x32.ptr.toNat + imm8.toNat))) := if_neg (Nat.not_le.2 h)

/-- A sum that 32 bits do not hold is OutOfBounds (R164, R202). -/
theorem addToPtr_overflow {s : State} {imm8 : Byte} (h : 2 ^ 32 ≤ s.x32.ptr.toNat + imm8.toNat) :
    addToPtr imm8 s = .error .ptrOverflow := if_pos h

/-- APTR with a sum that fits: the write goes to `ptr`, which the advance has left alone (R164). -/
theorem exec_aptr_fits {s : State} {imm8 : Byte} (h : s.x32.ptr.toNat + imm8.toNat < 2 ^ 32) :
    exec (.aptr imm8) s =
      .next ((s.advance 2).set32 .ptr (BitVec.ofNat 32 (s.x32.ptr.toNat + imm8.toNat))).tick := by
  rw [exec_aptr]
  exact attempt_ok (addToPtr_fits (s := s.advance 2) h)

/-- APTR with a sum that does not fit raises from the state before it (R164, R207). -/
theorem exec_aptr_overflow {s : State} {imm8 : Byte} (h : 2 ^ 32 ≤ s.x32.ptr.toNat + imm8.toNat) :
    exec (.aptr imm8) s = .next (s.raise .ptrOverflow) := by
  rw [exec_aptr]
  exact attempt_error (addToPtr_overflow (s := s.advance 2) h)

/-- Settles O35: the two sides of 2^32 are the two answers of `addToPtr`; the extent fault is that of every instruction. -/
theorem aptrAddsToPtr : Obligations.AptrAddsToPtr := by
  refine ⟨fun _ => rfl, fun s imm8 => ⟨fun hfits => ?_, fun hover => exec_aptr_overflow hover⟩,
    instructionPastMemoryFaults 0xE1#8 .aptr 2 (by decide)⟩
  exact ⟨BitVec.ofNat 32 (s.x32.ptr.toNat + imm8.toNat), Nat.mod_eq_of_lt hfits, exec_aptr_fits hfits⟩

end Sys2Proof.Machine
end

section
/-! PROOFS. What a conditional jump does by its condition, which instructions write `pc` beside the advance, and that HALT
ends the run; then the statements of the family of control transfer. -/

namespace Sys2Proof

/-- A valid operand of the 32-bit family is a register (R22, R91). -/
theorem Sel32.exists_reg_of_valid {x : Sel32} (h : x.valid = true) : ∃ r, x = .reg r := by
  cases x with
  | reg r => exact ⟨r, rfl⟩
  | zero | seven => cases h

end Sys2Proof

namespace Sys2Proof.Machine

/-! ## JEZ and JNZ -/

theorem conditionZero_iff {f : Byte} : conditionZero f = true ↔ f = 0 := beq_iff_eq

theorem conditionNonzero_iff {f : Byte} : conditionNonzero f = true ↔ f ≠ 0 := bne_iff_ne

/-- A conditional jump raises nothing: it answers the jump, or its omission, from the advanced state, with the condition
tested on the old `f` (R112, R180, R181). -/
theorem attempt_jumpIf (len : Nat) (cond : Byte → Bool) (target : Word) (s : State) :
    attempt len (fun t => .ok (jumpIf (cond t.x8.f) target t)) s =
      .next (jumpIf (cond s.x8.f) target (s.advance len)).tick := attempt_ok rfl

theorem exec_jez_of_zero {s : State} (h : s.x8.f = 0) (target : Word) :
    exec (.jez target) s = .next ((s.advance 5).set32 .pc target).tick := by
  rw [exec_jez, attempt_jumpIf, jumpIf, if_pos (conditionZero_iff.2 h)]

theorem exec_jez_of_nonzero {s : State} (h : s.x8.f ≠ 0) (target : Word) :
    exec (.jez target) s = .next (s.advance 5).tick := by
  rw [exec_jez, attempt_jumpIf, jumpIf, if_neg (mt conditionZero_iff.1 h)]

theorem exec_jnz_of_nonzero {s : State} (h : s.x8.f ≠ 0) (target : Word) :
    exec (.jnz target) s = .next ((s.advance 5).set32 .pc target).tick := by
  rw [exec_jnz, attempt_jumpIf, jumpIf, if_pos (conditionNonzero_iff.2 h)]

theorem exec_jnz_of_zero {s : State} (h : s.x8.f = 0) (target : Word) :
    exec (.jnz target) s = .next (s.advance 5).tick := by
  rw [exec_jnz, attempt_jumpIf, jumpIf, if_neg fun htaken => conditionNonzero_iff.1 htaken h]

/-- Settles O36: the two values of the condition are the two answers; the extent fault is that of every instruction. -/
theorem jezJumpsWhenFIsZero : Obligations.JezJumpsWhenFIsZero :=
  ⟨fun target => congrArg (0x21#8 :: ·) (imm32Bytes_eq target),
    fun _ target => ⟨fun hzero => exec_jez_of_zero hzero target, fun hnonzero => exec_jez_of_nonzero hnonzero target⟩,
    instructionPastMemoryFaults 0x21#8 .jez 5 (by decide)⟩

/-- Settles O37: as for JEZ, with the condition the other way round. -/
theorem jnzJumpsWhenFIsNotZero : Obligations.JnzJumpsWhenFIsNotZero :=
  ⟨fun target => congrArg (0x22#8 :: ·) (imm32Bytes_eq target),
    fun _ target => ⟨fun hnonzero => exec_jnz_of_nonzero hnonzero target, fun hzero => exec_jnz_of_zero hzero target⟩,
    instructionPastMemoryFaults 0x22#8 .jnz 5 (by decide)⟩

/-! ## Every change of `pc` -/

/-- Only the register itself names it as a destination (R26). -/
theorem destOf32_eq_some {dst : Sel32} {r : Reg32} (h : destOf32 dst = some r) : dst = .reg r := by
  cases dst with
  | reg q => exact congrArg Sel32.reg (Option.some.inj h)
  | zero | seven => cases h

/-- The instructions that write `pc` beside the advance: the two jumps, and MVI32 and MV32 with that destination (R183). -/
theorem dest32_eq_pc {i : Instr} (h : dest32 i = some .pc) :
    (∃ target, i = .jez target) ∨ (∃ target, i = .jnz target) ∨ (∃ target, i = .mvi32 (.reg .pc) target) ∨
      ∃ src, i = .mv32 (.reg .pc) src := by
  cases i with
  | jez target => exact .inl ⟨target, rfl⟩
  | jnz target => exact .inr (.inl ⟨target, rfl⟩)
  | mvi32 dst target => obtain rfl := destOf32_eq_some h; exact .inr (.inr (.inl ⟨target, rfl⟩))
  | mv32 dst src => obtain rfl := destOf32_eq_some h; exact .inr (.inr (.inr ⟨src, rfl⟩))
  | mvi | mv | halt | out | cmp | add | sub | xor | aptr => cases h

/-- An instruction that has completed names valid operands only: any other raises (R91, R140). -/
theorem Completed.selectorsValid {i : Instr} {s t : State} (hdone : Completed i s t) (h : exec i s = .next t) :
    i.selectorsValid = true := by
  by_contra hinvalid
  cases h.symm.trans (exec_invalid_selector (Bool.eq_false_of_not_eq_true hinvalid) s)
  exact not_completed_raise s .selector hdone

/-- Settles O41: a fatal condition leaves `pc` alone, a completed instruction advances it unless it is one of the four that
write it, and each of these writes its target or, where its condition fails or its source is `pc`, the advanced value. -/
theorem pcChangesOnlyAsListed : Obligations.PcChangesOnlyAsListed := by
  intro i s t h
  rcases exec_raises_or_completes h with ⟨info, rfl, -⟩ | hdone
  · exact .inr (.inr (.inr (.inr (.inr ⟨rfl, info, rfl⟩))))
  by_cases hdest : dest32 i = some .pc
  · rcases dest32_eq_pc hdest with ⟨target, rfl⟩ | ⟨target, rfl⟩ | ⟨target, rfl⟩ | ⟨src, rfl⟩
    · by_cases hf : s.x8.f = 0
      · rw [exec_jez_of_zero hf] at h; cases h
        exact .inr (.inl ⟨target, rfl, hf, rfl⟩)
      · rw [exec_jez_of_nonzero hf] at h; cases h
        exact .inl rfl
    · by_cases hf : s.x8.f = 0
      · rw [exec_jnz_of_zero hf] at h; cases h
        exact .inl rfl
      · rw [exec_jnz_of_nonzero hf] at h; cases h
        exact .inr (.inr (.inl ⟨target, rfl, hf, rfl⟩))
    · rw [exec_mvi32_reg] at h; cases h
      exact .inr (.inr (.inr (.inl ⟨target, rfl, rfl⟩)))
    · have hsrc : src.valid = true := hdone.selectorsValid h
      obtain ⟨q, rfl⟩ := Sel32.exists_reg_of_valid hsrc
      by_cases hq : q = .pc
      · rw [exec_mv32_reg, if_pos hq] at h; cases h
        exact .inl rfl
      · rw [exec_mv32_reg, if_neg hq] at h; cases h
        exact .inr (.inr (.inr (.inr (.inl ⟨q, rfl, hq, rfl⟩))))
  · exact .inl (hdone.pc hdest)

/-! ## HALT -/

/-- HALT raises nothing: the advance, the status, the count (R182). -/
theorem exec_halt_next (s : State) : exec .halt s = .next ((s.advance 1).setStatus .halted).tick := by
  rw [exec_halt]
  exact attempt_ok rfl

/-- Settles O38: HALTED is a terminal status, and no run is in progress in it. -/
theorem haltEndsTheRun : Obligations.HaltEndsTheRun :=
  ⟨rfl, fun s => ⟨_, exec_halt_next s, rfl, rfl, rfl, fun hmoves => run_stays (by simp) (by simpa using hmoves)⟩⟩

end Sys2Proof.Machine
end

section
/-! PROOFS. When the host receives the output, which step appends to it, and that no instruction sees the sink; then the
statements of the family of the output. -/

namespace Sys2Proof

/-- OUT has one opcode byte (R85). -/
theorem mnemonicOf_eq_out : ∀ b : Byte, mnemonicOf b = some .out ↔ b = 0x02#8 := by decide

end Sys2Proof

namespace Sys2Proof.Machine

/-! ## OUT -/

/-- OUT raises nothing: the advance, `a` appended, the count (R190). -/
theorem exec_out_next (s : State) : exec .out s = .next ((s.advance 1).output s.x8.a).tick := by
  rw [exec_out]
  exact attempt_ok rfl

/-- Settles O39. -/
theorem outAppendsA : Obligations.OutAppendsA := ⟨rfl, exec_out_next⟩

/-- Where OUT is fetched, its byte lies at `pc` (R190). -/
theorem read?_pc_of_fetch_out {s : State} (h : fetch s = .ok .out) : s.mem.read? s.x32.pc.toNat = some 0x02#8 := by
  obtain ⟨b, hb, hd⟩ := fetch_ok_head h
  rwa [(mnemonicOf_eq_out b).1 (decodeByte_eq_some.1 hd).1] at hb

/-! ## The hand-over -/

/-- While a run is in progress nothing is handed over (R68, R192). -/
theorem State.handsOver_nothing {s : State} (h : s.status = .running) :
    s.handedOver = none ∧ s.completion = none := by
  have hrunning : ¬ s.status.isTerminal = true := by rw [h]; exact Bool.false_ne_true
  exact ⟨if_neg hrunning, if_neg hrunning⟩

/-- In a terminal status the whole output and the status are handed over (R123, R192; log 23). -/
theorem State.handsOver_output {s : State} (h : s.status.isTerminal = true) :
    s.handedOver = some s.outseq ∧ s.completion = some s.status := ⟨if_pos h, if_pos h⟩

/-- A step of a run leaves it in progress or ends it: it never goes back to IDLE (R30). -/
theorem step_running_status {s t : State} (hs : s.status = .running) (h : step s = .next t) :
    t.status = .running ∨ t.status.isTerminal = true := by
  rcases step_running_cases hs h with ⟨-, rfl⟩ | ⟨info, -, rfl⟩ | ⟨-, i, -, hdone⟩
  · exact .inr rfl
  · exact .inr rfl
  · rcases hdone.status with ⟨-, ht⟩ | ⟨-, ht⟩
    · exact .inl (ht.trans ((takeSample_status s).trans hs))
    · exact .inr (by rw [ht]; rfl)

/-- Settles O16. -/
theorem outputIsHandedOverAfterTheRunOnly : Obligations.OutputIsHandedOverAfterTheRunOnly := by
  intro s t hs h
  obtain ⟨houtput, hsignal⟩ := State.handsOver_nothing hs
  exact ⟨houtput, hsignal, State.handsOver_nothing,
    fun hended => State.handsOver_output ((step_running_status hs h).resolve_left hended)⟩

/-! ## No instruction sees the sink -/

/-- The same machine with another output before it (R191). -/
def State.withSink (s : State) (sink : List Byte) : State := { s with outseq := sink }

theorem write8_withSink (sel : Sel8) (v : Byte) (t : State) (sink : List Byte) :
    write8 sel v (t.withSink sink) = (write8 sel v t).map (·.withSink sink) := by
  cases sel with
  | zero | reg => rfl
  | ind =>
    rcases Nat.lt_or_ge (effectiveAddress t) t.mem.size with hin | hout
    · rw [write8_ind hin]; exact write8_ind (s := t.withSink sink) hin v
    · rw [write8_ind_outside hout]; exact write8_ind_outside (s := t.withSink sink) hout v

theorem write32_withSink (sel : Sel32) (v : Word) (t : State) (sink : List Byte) :
    write32 sel v (t.withSink sink) = (write32 sel v t).map (·.withSink sink) := by
  cases sel <;> rfl

theorem addToPtr_withSink (imm8 : Byte) (t : State) (sink : List Byte) :
    addToPtr imm8 (t.withSink sink) = (addToPtr imm8 t).map (·.withSink sink) := by
  rcases Nat.lt_or_ge (t.x32.ptr.toNat + imm8.toNat) (2 ^ 32) with hfits | hover
  · rw [addToPtr_fits hfits]; exact addToPtr_fits (s := t.withSink sink) hfits
  · rw [addToPtr_overflow hover]; exact addToPtr_overflow (s := t.withSink sink) hover

theorem jumpIf_withSink (taken : Bool) (target : Word) (t : State) (sink : List Byte) :
    jumpIf taken target (t.withSink sink) = (jumpIf taken target t).withSink sink := by
  cases taken <;> rfl

/-- What is read, or checked, decides the write or raises; it is no matter of the sink. -/
theorem bind_withSink {α : Type} (read : Except FaultInfo α) {write write' : α → Except FaultInfo State}
    {sink : List Byte} (hwrite : ∀ v, write' v = (write v).map (·.withSink sink)) :
    read.bind write' = (read.bind write).map (·.withSink sink) := by
  cases read with
  | ok v => exact hwrite v
  | error info => rfl

/-- An instruction hands the sink through where its effect does; a fatal condition always does. -/
theorem attempt_withSink {len : Nat} {effect : State → Except FaultInfo State} {s t : State} {sink : List Byte}
    (heffect : effect ((s.advance len).withSink sink) = (effect (s.advance len)).map (·.withSink sink))
    (h : attempt len effect s = .next t) : attempt len effect (s.withSink sink) = .next (t.withSink sink) := by
  rcases attempt_cases h with ⟨u, hu, rfl⟩ | ⟨info, hinfo, rfl⟩
  · rw [hu] at heffect; exact attempt_ok (s := s.withSink sink) heffect
  · rw [hinfo] at heffect; exact attempt_error (s := s.withSink sink) heffect

/-- Every instruction but OUT does the same before any sink: it reads registers and memory only, and hands the sink
through (R191). -/
theorem exec_withSink {i : Instr} (hout : i ≠ .out) {s t : State} (h : exec i s = .next t) (sink : List Byte) :
    exec i (s.withSink sink) = .next (t.withSink sink) := by
  cases i with
  | out => exact absurd rfl hout
  | mvi dst imm8 =>
    rw [exec_mvi] at h ⊢
    exact attempt_withSink (bind_withSink _ fun _ => write8_withSink dst imm8 (s.advance 2) sink) h
  | mv dst src =>
    rw [exec_mv] at h ⊢
    exact attempt_withSink (bind_withSink _ fun _ =>
      bind_withSink (read8 src (s.advance 1)) fun v => write8_withSink dst v (s.advance 1) sink) h
  | mvi32 dst imm32 =>
    rw [exec_mvi32] at h ⊢
    exact attempt_withSink (bind_withSink _ fun _ => write32_withSink dst imm32 (s.advance 5) sink) h
  | mv32 dst src =>
    rw [exec_mv32] at h ⊢
    exact attempt_withSink (bind_withSink _ fun _ =>
      bind_withSink (read32 src (s.advance 1)) fun v => write32_withSink dst v (s.advance 1) sink) h
  | jez target =>
    rw [exec_jez] at h ⊢
    exact attempt_withSink (congrArg Except.ok (jumpIf_withSink (conditionZero s.x8.f) target (s.advance 5) sink)) h
  | jnz target =>
    rw [exec_jnz] at h ⊢
    exact attempt_withSink (congrArg Except.ok (jumpIf_withSink (conditionNonzero s.x8.f) target (s.advance 5) sink)) h
  | aptr imm8 =>
    rw [exec_aptr] at h ⊢
    exact attempt_withSink (addToPtr_withSink imm8 (s.advance 2) sink) h
  | halt | cmp | add | sub | xor => cases h; rfl

/-- Every instruction but OUT leaves the output as it is (R191). -/
theorem exec_outseq {i : Instr} (hout : i ≠ .out) {s t : State} (h : exec i s = .next t) : t.outseq = s.outseq := by
  obtain ⟨-, -, -, -, -, hframe, -⟩ := frameOfEveryInstruction i s t h
  exact hframe hout

/-! ## The output grows at its end -/

/-- A step of a run appends `a` where OUT is fetched, or leaves the output as it is (R191). -/
theorem step_running_outseq {s t : State} (hs : s.status = .running) (h : step s = .next t) :
    (t.outseq = s.outseq ++ [s.x8.a] ∧ fetch s = .ok .out) ∨ t.outseq = s.outseq := by
  rcases step_running_cases hs h with ⟨-, rfl⟩ | ⟨info, -, rfl⟩ | ⟨-, i, hf, hdone⟩
  · simp
  · simp
  · rcases hdone.outseq with ho | ⟨rfl, ho⟩
    · exact .inr (by simpa using ho)
    · exact .inl ⟨by simpa using ho, hf⟩

/-- Settles O45: OUT appends `a`, which is no matter of the sink, and every other instruction appends nothing. -/
theorem outputIsAppendOnly : Obligations.OutputIsAppendOnly := by
  refine ⟨fun s t hs h => ?_, fun i s t sink h => ?_⟩
  · exact (step_running_outseq hs h).imp_left fun ⟨ho, hf⟩ => ⟨ho, read?_pc_of_fetch_out hf⟩
  · by_cases hout : i = .out
    · subst hout
      rw [exec_out_next] at h
      cases h
      exact ⟨[s.x8.a], rfl, exec_out_next (s.withSink sink)⟩
    · refine ⟨[], ?_, ?_⟩
      · rw [List.append_nil, exec_outseq hout h]
      · rw [List.append_nil]
        exact exec_withSink hout h sink

end Sys2Proof.Machine
end

section
/-! PROOFS. What a fatal condition leaves, and that a run ends at the latest in the iteration after those its watchdog
lets begin, with the count it then has; then the statements of the family of the exceptions. -/

namespace Sys2Proof.Machine

/-! ## The fatal conditions -/

/-- Of the records of a fatal condition only the opcode byte is UnsupportedOpcode's (R201, R202). -/
theorem FaultInfo.kind_eq_unsupportedOpcode {info : FaultInfo} :
    info.kind = .unsupportedOpcode ↔ ∃ b, info = .opcodeByte b := by
  cases info <;> simp [FaultInfo.kind]

/-- With no run in progress and no pending move, a step leaves the machine as it is (R30; log 13). -/
theorem step_stays {s : State} (hs : s.status ≠ .running) (hm : s.hostMoves = []) : step s = .next s := by
  rw [step_not_running hs, hostTurn, hm]

/-- Of the three ends of a step of a run only the fatal condition leaves FAULTED (R30, R207). -/
theorem step_faulted {s t : State} {kind : FatalKind} {ia : Word} {info : FaultInfo} (hs : s.status = .running)
    (h : step s = .next t) (ht : t.status = .faulted kind ia info) :
    t = (takeSample s).raise info ∧ kind = info.kind ∧ ia = s.x32.pc := by
  rcases step_running_cases hs h with ⟨-, rfl⟩ | ⟨info', -, rfl⟩ | ⟨-, i, -, hdone⟩
  · cases ht
  · obtain ⟨rfl, rfl, rfl⟩ := Status.faulted.inj ht
    exact ⟨rfl, rfl, by rw [takeSample_x32]⟩
  · rcases hdone.status with ⟨-, hstatus⟩ | ⟨-, hstatus⟩
    · rw [hstatus, takeSample_status, hs] at ht; cases ht
    · rw [hstatus] at ht; cases ht

/-- Settles O24: the FAULTED state is the one the iteration began in, but for the status and the sample taken. -/
theorem fatalConditionIsPrecise : Obligations.FatalConditionIsPrecise := by
  intro s t kind ia info hs h ht
  obtain ⟨rfl, rfl, rfl⟩ := step_faulted hs h ht
  refine ⟨sameCore_takeSample s, rfl, rfl, takeSample_hostMoves s, FaultInfo.kind_eq_unsupportedOpcode, fun hm => ?_⟩
  exact step_stays (by simp) ((takeSample_hostMoves s).trans hm)

/-- Settles O21: of the answers of the fetch at a byte, only UnsupportedOpcode allows that it decodes to nothing. -/
theorem unknownOpcodeFaults : Obligations.UnknownOpcodeFaults := by
  intro s b h hbyte hdecode
  rcases fetch_cases s with ⟨hout, -⟩ | ⟨b', hbyte', hcases⟩
  · exact absurd (Memory.lt_size_of_read? hbyte) (Nat.not_lt.2 hout)
  · obtain rfl : b = b' := Option.some.inj (hbyte.symm.trans hbyte')
    rw [hdecode] at hcases
    rcases hcases with ⟨-, hf⟩ | ⟨_, _, hsome, -⟩ | ⟨i, hsome, -⟩
    · exact step_of_fetch_error h hf
    · cases hsome
    · cases hsome

/-! ## The watchdogs that count -/

/-- The watchdog fires by the count of completed instructions, and not by a sample (R211; log 9 for the default timeout). -/
def Watchdog.counts : Watchdog → Bool
  | .unset => true
  | .wallClock _ => false
  | .maxInstr _ => true

/-- A watchdog that counts has no samples to take. -/
theorem takeSample_of_counts {s : State} (h : s.watchdog.counts = true) : takeSample s = s := by
  cases hw : s.watchdog with
  | unset => simp only [takeSample, hw]
  | maxInstr n => simp only [takeSample, hw]
  | wallClock samples => rw [hw] at h; cases h

/-- A watchdog that counts fires only when it lets no iteration begin. -/
theorem iterationsLeft_of_fires {s : State} (h : s.watchdog.counts = true) (hfires : watchdogFires s = true) :
    iterationsLeft s = 0 := by
  cases hw : s.watchdog with
  | unset => simpa only [iterationsLeft, hw, Nat.sub_eq_zero_iff_le] using (watchdogFires_unset hw).1 hfires
  | maxInstr n => simpa only [iterationsLeft, hw, Nat.sub_eq_zero_iff_le] using (watchdogFires_maxInstr hw).1 hfires
  | wallClock samples => rw [hw] at h; cases h

/-! ## Every run ends -/

/-- What is known of the state `t` in which the run from `s` ends, of the status and of the count. -/
structure EndsAt (s t : State) : Prop where
  /-- the status is terminal (R30) -/
  terminal : t.status.isTerminal = true
  /-- the run has left the host's moves alone (log 11) -/
  hostMoves : t.hostMoves = s.hostMoves
  /-- no more instructions were completed than the watchdog let begin (R211, R212) -/
  icount_le : t.icount ≤ s.icount + iterationsLeft s
  /-- a watchdog that counts lets all of them complete before it fires (R211; log 9) -/
  icount_timedOut : t.status = .timedOut → s.watchdog.counts = true → t.icount = s.icount + iterationsLeft s

/-- An instruction has been completed and the run goes on, with one iteration less to begin (R120). -/
structure GoesOn (s t : State) : Prop where
  running : t.status = .running
  hostMoves : t.hostMoves = s.hostMoves
  icount : t.icount = s.icount + 1
  iterationsLeft : iterationsLeft t + 1 = iterationsLeft s
  counts : s.watchdog.counts = true → t.watchdog.counts = true

/-- The end of the run that goes on is the end of the run. -/
theorem GoesOn.endsAt {s a t : State} (h : GoesOn s a) (hend : EndsAt a t) : EndsAt s t := by
  have hcount := h.icount
  have hleft := h.iterationsLeft
  refine ⟨hend.terminal, hend.hostMoves.trans h.hostMoves, ?_, fun ht hcounts => ?_⟩
  · have := hend.icount_le; omega
  · have := hend.icount_timedOut ht (h.counts hcounts); omega

/-- A run that times out has completed as many instructions as a counting watchdog allows (R114, R211). -/
theorem endsAt_timedOut {s : State} (hw : watchdogFires s = true) : EndsAt s ((takeSample s).setStatus .timedOut) where
  terminal := rfl
  hostMoves := takeSample_hostMoves s
  icount_le := by simp
  icount_timedOut _ hcounts := by simp [iterationsLeft_of_fires hcounts hw]

/-- A fatal condition ends the run and counts nothing (R207). -/
theorem endsAt_raise (s : State) (info : FaultInfo) : EndsAt s ((takeSample s).raise info) where
  terminal := rfl
  hostMoves := takeSample_hostMoves s
  icount_le := by simp
  icount_timedOut h := by cases h

/-- A completed instruction ends the run where it is HALT; after any other the run goes on (R111, R182). -/
theorem Completed.goesOn_or_endsAt {i : Instr} {s t : State} (h : Completed i (takeSample s) t)
    (hs : s.status = .running) (hw : watchdogFires s = false) : GoesOn s t ∨ EndsAt s t := by
  obtain ⟨hwatchdog, hresets, hmoves⟩ := h.inputs
  rw [takeSample_resets] at hresets
  rw [takeSample_hostMoves] at hmoves
  have hcount : t.icount = s.icount + 1 := by simpa using h.icount
  have hleft := iterationsLeft_next hwatchdog hresets hcount hw
  rcases h.status with ⟨-, ht⟩ | ⟨-, ht⟩
  · refine .inl ⟨ht.trans ((takeSample_status s).trans hs), hmoves, hcount, hleft, fun hcounts => ?_⟩
    rw [hwatchdog, takeSample_of_counts hcounts, hcounts]
  · exact .inr ⟨by rw [ht]; rfl, hmoves, by omega, fun hto => by rw [ht] at hto; cases hto⟩

/-- A step of a run goes on with it or ends it. -/
theorem step_goesOn_or_endsAt {s t : State} (hs : s.status = .running) (h : step s = .next t) :
    GoesOn s t ∨ EndsAt s t := by
  rcases step_running_cases hs h with ⟨hw, rfl⟩ | ⟨info, -, rfl⟩ | ⟨hw, i, -, hdone⟩
  · exact .inr (endsAt_timedOut hw)
  · exact .inr (endsAt_raise s info)
  · exact hdone.goesOn_or_endsAt hs hw

/-- R212: a run ends, at the latest in the iteration after those its watchdog lets begin, because each iteration that goes
on uses up one of them. -/
theorem run_ends {s : State} (hs : s.status = .running) :
    ∃ k t, k ≤ iterationsLeft s + 1 ∧ Host.Core.run Sys2Proof.core k s = .next t ∧ EndsAt s t := by
  obtain ⟨a, ha⟩ := step_running_answers hs
  rcases step_goesOn_or_endsAt hs ha with hgoes | hend
  · have hleft := hgoes.iterationsLeft
    obtain ⟨k, t, hk, ht, hend⟩ := run_ends hgoes.running
    exact ⟨k + 1, t, by omega, (run_succ ha k).trans ht, hgoes.endsAt hend⟩
  · exact ⟨1, a, by omega, run_succ ha 0, hend⟩
termination_by iterationsLeft s
decreasing_by omega

/-- A run of `k + m` steps is one of `k` steps and then one of `m`. -/
theorem run_add {M : Host.Core} {k : Nat} {s t : M.State} (h : M.run k s = .next t) (m : Nat) :
    M.run (k + m) s = M.run m t := by
  induction k generalizing s with
  | zero => cases h; rw [Nat.zero_add]
  | succ k ih =>
    rw [Nat.succ_add]
    simp only [Host.Core.run] at h ⊢
    cases ha : M.step s with
    | next a => rw [ha] at h; exact ih h
    | fault r => rw [ha] at h; cases h
    | refused r => rw [ha] at h; cases h

/-- With no pending move the run has ended after that many steps, and the machine stays there. -/
theorem run_has_ended {s : State} (hs : s.status = .running) (hm : s.hostMoves = []) :
    ∃ t, Host.Core.run Sys2Proof.core (iterationsLeft s + 1) s = .next t ∧ EndsAt s t := by
  obtain ⟨k, t, hk, ht, hend⟩ := run_ends hs
  have hnot : t.status ≠ .running := fun hr => by have := hend.terminal; rw [hr] at this; cases this
  refine ⟨t, ?_, hend⟩
  rw [← Nat.add_sub_cancel' hk, run_add ht]
  exact run_stays hnot (hend.hostMoves.trans hm) _

/-- Settles O54: a terminal status is part of what is known of the end of a run. -/
theorem everyRunEnds : Obligations.EveryRunEnds := by
  intro s hs
  obtain ⟨k, t, hk, ht, hend⟩ := run_ends hs
  exact ⟨k, t, hk, ht, hend.terminal⟩

/-- Settles O51: the iterations left are the samples to come, or what the default timeout still allows. -/
theorem wallClockEndsTheRun : Obligations.WallClockEndsTheRun := by
  refine ⟨fun s samples hs hw hm => ?_, fun s hs hw hm => ?_⟩
  · obtain ⟨t, ht, hend⟩ := run_has_ended hs hm
    have hleft : iterationsLeft s = samples.length := by rw [iterationsLeft, hw]
    exact ⟨t, hleft ▸ ht, hend.terminal⟩
  · obtain ⟨t, ht, hend⟩ := run_has_ended hs hm
    have hleft : iterationsLeft s = Config.defaultTimeout s.resets - s.icount := by rw [iterationsLeft, hw]
    refine ⟨t, hleft ▸ ht, hend.terminal, fun hto => ?_⟩
    have := hend.icount_timedOut hto (by rw [hw]; rfl)
    omega

/-- Settles O50: the count reading lets `MAX_INSTR - icount` iterations begin. At the bound it fires at once, and one
below it does not, so that a HALT there is executed. -/
theorem maxInstrEndsTheRun : Obligations.MaxInstrEndsTheRun := by
  refine ⟨fun s n hs hw hle hm => ?_, fun s hs hw => ?_, fun s hs hw hhalt => ?_⟩
  · obtain ⟨t, ht, hend⟩ := run_has_ended hs hm
    have hleft : iterationsLeft s = n - s.icount := by rw [iterationsLeft, hw]
    refine ⟨t, hleft ▸ ht, hend.terminal, ?_, fun hto => ?_⟩
    · have := hend.icount_le; omega
    · have := hend.icount_timedOut hto (by rw [hw]; rfl); omega
  · exact ⟨_, step_of_fires hs ((watchdogFires_maxInstr hw).2 le_rfl), rfl, sameCore_takeSample s⟩
  · have hquiet : watchdogFires s = false := by
      rw [Bool.eq_false_iff, ne_eq, watchdogFires_maxInstr hw]
      exact Nat.not_succ_le_self s.icount
    obtain ⟨t, ht⟩ := step_running_answers hs
    have hhalted : t.status = .halted := step_halt hs hquiet (fetch_eq_halt.2 hhalt) ht
    exact ⟨t, ht, hhalted, (completedInstructionsAreCounted s t hs ht).1 (.inr hhalted)⟩

end Sys2Proof.Machine
end

section
/-! PROOFS. What each transaction of the host answers in IDLE, and the state the boot sequence reaches; then the statements
of the family of reset and boot. -/

namespace Sys2Proof.Machine

/-! ## Reset -/

theorem reset_x8_get (r : Reg8) : State.reset.x8.get r = 0 := by cases r <;> rfl

theorem reset_x32_get (r : Reg32) : State.reset.x32.get r = 0 := by cases r <;> rfl

/-- A transaction out of a terminal status is the reset, since every other one asks for IDLE (D15). -/
theorem transact_of_isTerminal {m : HostMove} {s t : State} (hterm : s.status.isTerminal = true)
    (h : transact m s = .next t) : m = .reset := by
  rcases transact_cases h with ⟨hm, -⟩ | ⟨hs, -⟩
  · exact hm
  · rw [hs] at hterm; cases hterm

/-- Settles O10. -/
theorem resetLeavesTheResetState : Obligations.ResetLeavesTheResetState :=
  ⟨fun s => ⟨hostReset s, rfl, reset_x8_get, reset_x32_get, rfl, rfl, rfl⟩,
    ⟨reset_x8_get, reset_x32_get, rfl, rfl, rfl⟩,
    fun _ _ _ => transact_of_isTerminal⟩

/-! ## The transactions in IDLE -/

theorem transact_loadImage {s : State} {image : List Byte} (hs : s.status = .idle) (hl : image.length < 2 ^ 32) :
    transact (.loadImage image) s = .next { s with mem := Memory.ofImage image } :=
  (if_pos hl).trans (if_pos hs)

theorem transact_preload {s : State} (hs : s.status = .idle) (pcInit ptrInit : Word) :
    transact (.preload pcInit ptrInit) s = .next ((s.set32 .pc pcInit).set32 .ptr ptrInit) := if_pos hs

theorem transact_provideWatchdog {s : State} (hs : s.status = .idle) (w : Watchdog) :
    transact (.provideWatchdog w) s = .next { s with watchdog := w } := if_pos hs

/-- Only loading an image changes the memory (R241). -/
theorem transact_mem {m : HostMove} {s t : State} (h : transact m s = .next t) (hm : ∀ image, m ≠ .loadImage image) :
    t.mem = s.mem := by
  rcases transact_cases h with
    ⟨-, rfl⟩ | ⟨-, ⟨image, hload, -⟩ | ⟨pcInit, ptrInit, -, rfl⟩ | ⟨w, -, rfl⟩ | ⟨-, rfl⟩⟩
  · exact hostReset_mem s
  · exact absurd hload (hm image)
  · simp only [State.set32_mem]
  · rfl
  · exact State.setStatus_mem s .running

/-- Settles O11: reset is one of the transactions that load no image. -/
theorem memoryIsTheLoadedImage : Obligations.MemoryIsTheLoadedImage :=
  ⟨fun _ _ h => transact_mem h nofun,
    fun _ image hs hl => ⟨_, transact_loadImage hs hl, rfl, Memory.read?_ofImage image⟩,
    fun _ _ _ => transact_mem⟩

/-! ## The boot sequence -/

/-- The state in which the boot sequence of R242 starts the run, when the host has made that many resets. -/
def State.booted (resets : Nat) (image : List Byte) (pcInit ptrInit : Word) (w : Watchdog) : State :=
  { State.reset with
    x32 := { State.reset.x32 with pc := pcInit, ptr := ptrInit }
    mem := Memory.ofImage image
    status := .running
    watchdog := w
    resets := resets }

/-- The registers that boot does not preload have their reset value. -/
theorem booted_x32_get {r : Reg32} (hpc : r ≠ .pc) (hptr : r ≠ .ptr) (resets : Nat) (image : List Byte)
    (pcInit ptrInit : Word) (w : Watchdog) : (State.booted resets image pcInit ptrInit w).x32.get r = 0 := by
  have hset : (State.booted resets image pcInit ptrInit w).x32 =
      (State.reset.x32.set .pc pcInit).set .ptr ptrInit := rfl
  simp [hset, hpc, hptr, reset_x32_get]

/-- With no run in progress, a run is the host's next transaction and then a run. -/
theorem run_hostMove {s t : State} {m : HostMove} {rest : List HostMove} (hs : s.status ≠ .running)
    (hm : s.hostMoves = m :: rest) (ht : transact m { s with hostMoves := rest } = .next t) (n : Nat) :
    Host.Core.run Sys2Proof.core (n + 1) s = Host.Core.run Sys2Proof.core n t :=
  run_succ ((step_hostMove hs hm).trans ht) n

/-- In IDLE no run is in progress. -/
theorem run_idleMove {s t : State} {m : HostMove} {rest : List HostMove} (hs : s.status = .idle)
    (hm : s.hostMoves = m :: rest) (ht : transact m { s with hostMoves := rest } = .next t) (n : Nat) :
    Host.Core.run Sys2Proof.core (n + 1) s = Host.Core.run Sys2Proof.core n t :=
  run_hostMove (fun hr => nomatch hs.symm.trans hr) hm ht n

/-- R242: reset leads to IDLE from any status, and the moves that ask for IDLE follow it there, the start last. -/
theorem run_boot {s : State} {image : List Byte} {pcInit ptrInit : Word} {w : Watchdog}
    (hl : image.length < 2 ^ 32) (hs : s.status ≠ .running)
    (hm : s.hostMoves = [.reset, .loadImage image, .preload pcInit ptrInit, .provideWatchdog w, .start]) :
    Host.Core.run Sys2Proof.core 5 s = .next (State.booted (s.resets + 1) image pcInit ptrInit w) :=
  (run_hostMove hs hm rfl 4).trans <|
    (run_idleMove rfl rfl (transact_loadImage rfl hl) 3).trans <|
    (run_idleMove rfl rfl (transact_preload rfl pcInit ptrInit) 2).trans <|
    (run_idleMove rfl rfl (transact_provideWatchdog rfl w) 1).trans <|
    run_idleMove rfl rfl ((runStartsFromIdleOnly _).1 rfl) 0

/-- Settles O14. -/
theorem bootSequenceReachesTheRun : Obligations.BootSequenceReachesTheRun := fun s image pcInit ptrInit w hl hs hm =>
  ⟨State.booted (s.resets + 1) image pcInit ptrInit w, run_boot hl hs hm, rfl, rfl, rfl, rfl, rfl, reset_x8_get,
    fun _ hpc hptr => booted_x32_get hpc hptr _ _ _ _ _, rfl, rfl, rfl, Memory.read?_ofImage image⟩

end Sys2Proof.Machine
end
